-- ==== Sys2Proof/Word.lean ====
section
/-! DEFINITION. The bit-vector types of the machine (spec 00_scope.md sections 4 and 5, rules R1 and R2).
Only names for widths stand here; the arithmetic on them is in Machine/Alu.lean and Machine/Flags.lean. -/

namespace Sys2Proof

/-- R2: a Byte, the unit of storage of every register and every memory cell. -/
abbrev Byte := BitVec 8

/-- R1: a Word, the unit of instruction encoding. -/
abbrev Word := BitVec 16

/-- R13: a register index, always the value of a 4-bit instruction field. -/
abbrev RegIndex := BitVec 4

/-- R35, R84: an absolute main-memory address as an instruction holds it (`imm8`). -/
abbrev Address := BitVec 8

/-- R103: the step count of a rotate, the 4-bit field `c` read as an unsigned immediate. -/
abbrev Steps := BitVec 4

end Sys2Proof
end

