-- ==== Sys2Proof/Syntax.lean ====
section
/-! DEFINITION. The instruction set: one constructor per row of spec/opcode_table.json (R54, R60), and the types of
the opcode table's rows. A constructor holds exactly the fields its format uses (R52); ignored bits are not kept
(R55, log 13). -/

namespace Sys2Proof

/-- The sixteen instructions of R54. The operand names are those of R51 and R53. -/
inductive Instr where
  /-- R72: opcode 0, the permanent no-op slot. -/
  | nop0
  /-- R80: `LDM xA, [addr]`. -/
  | ldm (a : RegIndex) (addr : Address)
  /-- R81: `LDI xA, #imm`. -/
  | ldi (a : RegIndex) (imm : Byte)
  /-- R82: `STM xA, [addr]`. -/
  | stm (a : RegIndex) (addr : Address)
  /-- R83: `MOV xA, xC`. -/
  | mov (a c : RegIndex)
  /-- R90: `ADDS xA, xB, xC`. -/
  | adds (a b c : RegIndex)
  /-- R91: `ADDQ xA, xB, xC`. -/
  | addq (a b c : RegIndex)
  /-- R100: `OR xA, xB, xC`. -/
  | or (a b c : RegIndex)
  /-- R101: `AND xA, xB, xC`. -/
  | and (a b c : RegIndex)
  /-- R102: `XOR xA, xB, xC`. -/
  | xor (a b c : RegIndex)
  /-- R103: `ROR xA, #steps`. -/
  | ror (a : RegIndex) (steps : Steps)
  /-- R110: `JEQ xA, #val`, inert. -/
  | jeq (a : RegIndex) (val : Byte)
  /-- R112: `HALT`. -/
  | halt
  /-- R111: `JGT xA, #val`, inert. -/
  | jgt (a : RegIndex) (val : Byte)
  /-- R73: opcode 14, unassigned. -/
  | nop14
  /-- R74: opcode 15, unassigned. -/
  | nop15
deriving DecidableEq, Repr

/-- R52: the five field layouts. -/
inductive Format where
  /-- `op a imm8`. -/
  | RI
  /-- `op a b c`. -/
  | RRR
  /-- `op a - c`, with `c` a register. -/
  | RR
  /-- `op a - c`, with `c` a step count. -/
  | RS
  /-- `op -`. -/
  | N
deriving DecidableEq, Repr

/-- A row of the opcode map of R54. -/
structure OpcodeRow where
  /-- The opcode, `word[15:12]`. -/
  op : BitVec 4
  /-- The spec's own mnemonic (D10). -/
  mnemonic : String
  /-- The field layout. -/
  format : Format
  /-- Whether the dispatch table holds a handler for the opcode. -/
  hasHandler : Bool
deriving DecidableEq, Repr

/-- Why the loader turns a token away (R59); the names are the model's own (log 20). -/
inductive TokenReject where
  /-- The token does not have exactly four characters. -/
  | notFourCharacters
  /-- One of its four characters is no hexadecimal digit. -/
  | notHexadecimal
deriving DecidableEq, Repr

/-- The mnemonic of an instruction, as spec/opcode_table.json spells it (R60, D10). -/
def Instr.mnemonic : Instr → String
  | .nop0 => "NOP0"
  | .ldm _ _ => "LDM"
  | .ldi _ _ => "LDI"
  | .stm _ _ => "STM"
  | .mov _ _ => "MOV"
  | .adds _ _ _ => "ADDS"
  | .addq _ _ _ => "ADDQ"
  | .or _ _ _ => "OR"
  | .and _ _ _ => "AND"
  | .xor _ _ _ => "XOR"
  | .ror _ _ => "ROR"
  | .jeq _ _ => "JEQ"
  | .halt => "HALT"
  | .jgt _ _ => "JGT"
  | .nop14 => "NOP14"
  | .nop15 => "NOP15"

/-- The opcode of an instruction (R54). -/
def Instr.opcode : Instr → BitVec 4
  | .nop0 => 0x0#4
  | .ldm _ _ => 0x1#4
  | .ldi _ _ => 0x2#4
  | .stm _ _ => 0x3#4
  | .mov _ _ => 0x4#4
  | .adds _ _ _ => 0x5#4
  | .addq _ _ _ => 0x6#4
  | .or _ _ _ => 0x7#4
  | .and _ _ _ => 0x8#4
  | .xor _ _ _ => 0x9#4
  | .ror _ _ => 0xA#4
  | .jeq _ _ => 0xB#4
  | .halt => 0xC#4
  | .jgt _ _ => 0xD#4
  | .nop14 => 0xE#4
  | .nop15 => 0xF#4

/-- The field layout of an instruction (R52). -/
def Instr.format : Instr → Format
  | .nop0 => .N
  | .ldm _ _ => .RI
  | .ldi _ _ => .RI
  | .stm _ _ => .RI
  | .mov _ _ => .RR
  | .adds _ _ _ => .RRR
  | .addq _ _ _ => .RRR
  | .or _ _ _ => .RRR
  | .and _ _ _ => .RRR
  | .xor _ _ _ => .RRR
  | .ror _ _ => .RS
  | .jeq _ _ => .RI
  | .halt => .N
  | .jgt _ _ => .RI
  | .nop14 => .N
  | .nop15 => .N

end Sys2Proof
end

