-- ==== Sys2Proof/Decode.lean ====
section
/-! DEFINITION. The decoder, the opcode table and the encoder (spec 30_encoding.md), and the loader's token (R59).
`decode` is total on Words and rejects none: every one of the 65536 Words is legal (R57, R63). What can be rejected
is a token of text, and it is rejected by name (`TokenReject`) before it reaches the core. -/

namespace Sys2Proof

/-! ### Fields (R50, R51) -/

/-- R50: `op = word[15:12]`. -/
def opField (w : Word) : BitVec 4 := w.extractLsb' 12 4

/-- R51: `a = word[11:8]`. -/
def aField (w : Word) : BitVec 4 := w.extractLsb' 8 4

/-- R51: `b = word[7:4]`. -/
def bField (w : Word) : BitVec 4 := w.extractLsb' 4 4

/-- R51: `c = word[3:0]`. -/
def cField (w : Word) : BitVec 4 := w.extractLsb' 0 4

/-- R51: `imm8 = word[7:0]`. -/
def imm8Field (w : Word) : Byte := w.extractLsb' 0 8

/-! ### The opcode table (R54) -/

/-- R19, R54, R143: the constant opcode table, 13 rows with a handler and 3 without. -/
def opcodeTable : List OpcodeRow :=
  [ ⟨0x0#4, "NOP0",  .N,   false⟩,
    ⟨0x1#4, "LDM",   .RI,  true⟩,
    ⟨0x2#4, "LDI",   .RI,  true⟩,
    ⟨0x3#4, "STM",   .RI,  true⟩,
    ⟨0x4#4, "MOV",   .RR,  true⟩,
    ⟨0x5#4, "ADDS",  .RRR, true⟩,
    ⟨0x6#4, "ADDQ",  .RRR, true⟩,
    ⟨0x7#4, "OR",    .RRR, true⟩,
    ⟨0x8#4, "AND",   .RRR, true⟩,
    ⟨0x9#4, "XOR",   .RRR, true⟩,
    ⟨0xA#4, "ROR",   .RS,  true⟩,
    ⟨0xB#4, "JEQ",   .RI,  true⟩,
    ⟨0xC#4, "HALT",  .N,   true⟩,
    ⟨0xD#4, "JGT",   .RI,  true⟩,
    ⟨0xE#4, "NOP14", .N,   false⟩,
    ⟨0xF#4, "NOP15", .N,   false⟩ ]

/-- R54: "`mask = 0xF000` for every row". -/
def OpcodeRow.mask (_ : OpcodeRow) : Word := 0xF000#16

/-- R54: "`match = op << 12`". -/
def OpcodeRow.pattern (r : OpcodeRow) : Word := r.op.setWidth 16 <<< 12

/-- A row selects a Word when the masked Word equals the row's pattern (R54). -/
def OpcodeRow.selects (r : OpcodeRow) (w : Word) : Bool := w &&& r.mask == r.pattern

/-- R52: the bits of a Word that an instruction of the format reads. -/
def Format.usedBits : Format → Word
  | .RI => 0xFFFF#16
  | .RRR => 0xFFFF#16
  | .RR => 0xFF0F#16
  | .RS => 0xFF0F#16
  | .N => 0xF000#16

/-! ### Decoding and encoding -/

/-- R50, R54, R63: the instruction a Word stands for; a function of the Word alone (R58).
The opcode field has four bits, so the last arm is opcode 15 and nothing else. -/
def decode (w : Word) : Instr :=
  match (opField w).toNat with
  | 0 => .nop0
  | 1 => .ldm (aField w) (imm8Field w)
  | 2 => .ldi (aField w) (imm8Field w)
  | 3 => .stm (aField w) (imm8Field w)
  | 4 => .mov (aField w) (cField w)
  | 5 => .adds (aField w) (bField w) (cField w)
  | 6 => .addq (aField w) (bField w) (cField w)
  | 7 => .or (aField w) (bField w) (cField w)
  | 8 => .and (aField w) (bField w) (cField w)
  | 9 => .xor (aField w) (bField w) (cField w)
  | 10 => .ror (aField w) (cField w)
  | 11 => .jeq (aField w) (imm8Field w)
  | 12 => .halt
  | 13 => .jgt (aField w) (imm8Field w)
  | 14 => .nop14
  | _ => .nop15

/-- R60: the canonical Word of an instruction, with 0 in the ignored bits. -/
def encode : Instr → Word
  | .nop0 => 0x0000#16
  | .ldm a addr => 0x1#4 ++ a ++ addr
  | .ldi a imm => 0x2#4 ++ a ++ imm
  | .stm a addr => 0x3#4 ++ a ++ addr
  | .mov a c => 0x4#4 ++ a ++ 0x0#4 ++ c
  | .adds a b c => 0x5#4 ++ a ++ b ++ c
  | .addq a b c => 0x6#4 ++ a ++ b ++ c
  | .or a b c => 0x7#4 ++ a ++ b ++ c
  | .and a b c => 0x8#4 ++ a ++ b ++ c
  | .xor a b c => 0x9#4 ++ a ++ b ++ c
  | .ror a steps => 0xA#4 ++ a ++ 0x0#4 ++ steps
  | .jeq a val => 0xB#4 ++ a ++ val
  | .halt => 0xC000#16
  | .jgt a val => 0xD#4 ++ a ++ val
  | .nop14 => 0xE000#16
  | .nop15 => 0xF000#16

/-! ### The loader's token (R59) -/

/-- The value of one hexadecimal digit, in either case. -/
def hexDigit? (ch : Char) : Option (BitVec 4) :=
  let n := ch.toNat
  if 48 ≤ n ∧ n ≤ 57 then some (BitVec.ofNat 4 (n - 48))
  else if 65 ≤ n ∧ n ≤ 70 then some (BitVec.ofNat 4 (n - 55))
  else if 97 ≤ n ∧ n ≤ 102 then some (BitVec.ofNat 4 (n - 87))
  else none

/-- R59, R36: a token of exactly four hexadecimal digits, most significant first, is a Word; any other text is
rejected by name (log 20). -/
def parseToken : List Char → Except TokenReject Word
  | [d3, d2, d1, d0] =>
    match hexDigit? d3, hexDigit? d2, hexDigit? d1, hexDigit? d0 with
    | some v3, some v2, some v1, some v0 => .ok (v3 ++ v2 ++ v1 ++ v0)
    | _, _, _, _ => .error .notHexadecimal
  | _ => .error .notFourCharacters

/-! ### The assembly notation (R60)

The spec's own notation for its listings (D10), of no behavioural content: registers in decimal, Bytes in hexadecimal,
step counts in decimal, as spec 95_test_vectors.md writes them. -/

/-- One hexadecimal digit, upper case. -/
def hexDigit (v : BitVec 4) : Char := Char.ofNat (if v.toNat < 10 then 48 + v.toNat else 55 + v.toNat)

/-- A Byte as `0x` and two hexadecimal digits. -/
def hexByte (v : Byte) : List Char := ['0', 'x', hexDigit (v.extractLsb' 4 4), hexDigit (v.extractLsb' 0 4)]

/-- A number below 16 in decimal. -/
def decimal (v : BitVec 4) : List Char :=
  if v.toNat < 10 then [Char.ofNat (48 + v.toNat)] else ['1', Char.ofNat (38 + v.toNat)]

/-- Register `i` in the notation. -/
def regName (i : RegIndex) : List Char := 'x' :: decimal i

/-- An operand list: items parted by a comma and a space, after a space. -/
def operandList : List (List Char) → List Char
  | [] => []
  | item :: [] => ' ' :: item
  | item :: rest => ' ' :: item ++ ',' :: operandList rest

/-- R60, column "syntax": the operands of an instruction. -/
def Instr.operandText : Instr → List (List Char)
  | .nop0 => []
  | .ldm a addr => [regName a, '[' :: hexByte addr ++ [']']]
  | .ldi a imm => [regName a, '#' :: hexByte imm]
  | .stm a addr => [regName a, '[' :: hexByte addr ++ [']']]
  | .mov a c => [regName a, regName c]
  | .adds a b c => [regName a, regName b, regName c]
  | .addq a b c => [regName a, regName b, regName c]
  | .or a b c => [regName a, regName b, regName c]
  | .and a b c => [regName a, regName b, regName c]
  | .xor a b c => [regName a, regName b, regName c]
  | .ror a steps => [regName a, '#' :: decimal steps]
  | .jeq a val => [regName a, '#' :: hexByte val]
  | .halt => []
  | .jgt a val => [regName a, '#' :: hexByte val]
  | .nop14 => []
  | .nop15 => []

/-- R60: an instruction in the assembly notation. -/
def Instr.assembly (i : Instr) : List Char := i.mnemonic.toList ++ operandList i.operandText

/-! ### The host's reading of the opcode table -/

/-- The instruction the decoder reads from a table word: bit 0 of `w` is bit 0 of the Word (00_scope.md section 5).
Every instruction has one Word of 16 bits (R50), so a longer table word is none. -/
def decodeTableWord (nbits w : Nat) : Option Instr :=
  if nbits ≤ 16 then some (decode (BitVec.ofNat 16 (w % 2 ^ nbits))) else none

end Sys2Proof
end

