-- ==== Sys2Proof/Config.lean ====
section
/-! DEFINITION. The implementation parameters of spec 00_scope.md section 4 and the reset values of R24.
The parameters `INIT_REG` and `INIT_MEM` are OPEN in the spec (D1): `State.construct` takes them as arguments and
every state carries them; the two values named here are only those of `State.reset` (logs 1 and 2). -/

namespace Sys2Proof.Config

/-- `REG_COUNT` (R11, R32): the capacity of the register file. -/
abbrev regCount : Nat := 16

/-- `MEM_SIZE` (R21, R32): the capacity of main memory. -/
abbrev memSize : Nat := 256

/-- R30, R31, R33: what a read outside the capacity of a Memory block returns. -/
def outOfRangeByte : Byte := 0x00#8

/-- What an address that main memory does not list reads as.
DESIGN CHOICE (log 2): the spec leaves `INIT_MEM` open; 0x00 everywhere is its conventional instance (R24). -/
def unlistedByte : Byte := 0x00#8

/-- `INIT_REG` of `State.reset`.
DESIGN CHOICE (log 1): the spec leaves it open; 0x00 everywhere is its conventional instance (R24). -/
def initRegs : Vector Byte regCount := Vector.replicate regCount 0x00#8

/-- `INIT_MEM` of `State.reset`: nothing listed, so every address reads as `unlistedByte` (log 2). -/
def initMem : List Host.Cell := []

/-- `PC_RESET` (R24, the spec's own decision D2; log 3). -/
def pcReset : BitVec 8 := 0x00#8

/-- `IR_RESET` (R24, the spec's own decision D2; log 3). -/
def irReset : Word := 0x0000#16

end Sys2Proof.Config
end

