-- ==== Sys2Proof/Machine/Alu.lean ====
section
/-! DEFINITION. The ALU's value functions: `wrap8` and `sext_8` (R3, R4), the two adds (R90 to R94), the bitwise
operations (R105) and the rotate (R104). -/

namespace Sys2Proof.Machine

/-- R3: `wrap8(n)`, the non-negative remainder of a mathematical integer modulo 256, as a Byte. -/
def wrap8 (n : Int) : Byte := BitVec.ofNat 8 (n % 256).toNat

/-- R4: `sext_8(v)`, the two's-complement reading (PRESUMED: the spec's G1, log 14). -/
def sext8 (v : Byte) : Int := if v.toNat ≤ 127 then (v.toNat : Int) else (v.toNat : Int) - 256

/-- R90: the add of opcode 5. -/
def addSigned (p q : Byte) : Byte := wrap8 (sext8 p + sext8 q)

/-- R91: the add of opcode 6 in the closed form "which is what a model should implement"; a sum of 256 or more
wraps by the spec's own decision D4 (log 10). -/
def addQ44 (p q : Byte) : Byte := wrap8 ((p.toNat : Int) + (q.toNat : Int))

/-- R94: the rational number a Byte denotes as Q4.4, read unsigned (D4; log 10). -/
def q44 (v : Byte) : ℚ := (v.toNat : ℚ) / 16

/-- Round toward zero (R91 `trunc`). -/
def truncToInt (t : ℚ) : Int := t.num.tdiv t.den

/-- R91: the add of opcode 6 "as the source describes it", on exact rationals. The machine uses `addQ44`. -/
def addQ44Rational (p q : Byte) : Byte := wrap8 (truncToInt ((q44 p + q44 q) * 16))

/-- R100: bitwise OR. -/
def bitOr (p q : Byte) : Byte := p ||| q

/-- R101: bitwise AND. -/
def bitAnd (p q : Byte) : Byte := p &&& q

/-- R102: bitwise exclusive OR. -/
def bitXor (p q : Byte) : Byte := p ^^^ q

/-- R104: `rotate_right8(v, s)`, toward bit 0; for `s` of 8 or more by the spec's own decision D3 (logs 9 and 14). -/
def rotateRight8 (v : Byte) (s : Nat) : Byte :=
  let r := s % 8
  if r = 0 then v else (v >>> r) ||| (v <<< (8 - r))

end Sys2Proof.Machine
end

