-- ==== Sys2Proof/Machine/Memory.lean ====
section
/-! DEFINITION. The Memory block and its two uses, main memory and the register file (R7; spec 20_memory.md section 1).
Main memory is a list of (address, byte) pairs in one canonical form: addresses strictly rising and below `size`, no
pair holding what an unlisted address reads as. The register file is a vector. Both obey the one contract of R30 to
R33: a read at or past `size` gives 0x00, a store there is dropped. -/

namespace Sys2Proof.Machine

/-- R21: main memory, as the cells that differ from what an unlisted address reads as. -/
abbrev Memory := List Host.Cell

/-- R11: the register file. -/
abbrev RegFile := Vector Byte Config.regCount

/-! ### Main memory -/

/-- The byte the list holds at `addr`. -/
def Memory.lookup : Memory → Nat → Byte
  | [], _ => Config.unlistedByte
  | (k, v) :: rest, addr => if addr = k then v else Memory.lookup rest addr

/-- R30: `read(addr)`, for every natural address. -/
def Memory.read (m : Memory) (addr : Nat) : Byte :=
  if addr < Config.memSize then Memory.lookup m addr else Config.outOfRangeByte

/-- The list with `v` at `addr`: one pair, or none where `v` is what an unlisted address reads as. -/
def Memory.put : Memory → Nat → Byte → Memory
  | [], addr, v => if v = Config.unlistedByte then [] else [(addr, v)]
  | (k, u) :: rest, addr, v =>
    if addr < k then
      if v = Config.unlistedByte then (k, u) :: rest else (addr, v) :: (k, u) :: rest
    else if addr = k then
      if v = Config.unlistedByte then rest else (k, v) :: rest
    else (k, u) :: Memory.put rest addr v

/-- R31: `store(addr, val)`, for every natural address. -/
def Memory.store (m : Memory) (addr : Nat) (v : Byte) : Memory :=
  if addr < Config.memSize then Memory.put m addr v else m

/-- R32: `size()` of main memory. -/
def Memory.size (_ : Memory) : Nat := Config.memSize

/-- The canonical form, above a lower bound of the addresses. -/
def Memory.wfFrom : Nat → Memory → Bool
  | _, [] => true
  | low, (k, v) :: rest =>
    decide (low ≤ k) && decide (k < Config.memSize) && decide (v ≠ Config.unlistedByte) && Memory.wfFrom (k + 1) rest

/-- The canonical form of main memory: equal memories are equal lists (log 24). -/
def Memory.wf (m : Memory) : Bool := Memory.wfFrom 0 m

/-! ### The register file -/

/-- R30 with `size = 16`, for every natural address. -/
def RegFile.read (x : RegFile) (addr : Nat) : Byte :=
  if h : addr < Config.regCount then x[addr] else Config.outOfRangeByte

/-- R31 with `size = 16`, for every natural address. -/
def RegFile.store (x : RegFile) (addr : Nat) (v : Byte) : RegFile :=
  if h : addr < Config.regCount then x.set addr v else x

/-- R32: `size()` of the register file. -/
def RegFile.size (_ : RegFile) : Nat := Config.regCount

end Sys2Proof.Machine
end

