-- ==== Sys2Proof/Machine/State.lean ====
section
/-! DEFINITION. The state of the core (R10), the model's own fields for its ports and construction parameters (R23,
R24), and the state after reset (R24, R140). -/

namespace Sys2Proof.Machine

/-- R76: what one `Execute` returns (form by the spec's own decision D6; log 5). -/
inductive Status where
  /-- Every opcode but 12. -/
  | CONTINUE
  /-- Opcode 12. -/
  | HALT
deriving DecidableEq, Repr

/-- R23: the values on the control and instruction input ports in one step (logs 4 and 7). -/
structure PortSample where
  /-- Port `rst`: put the core in its reset state. -/
  rst : Bool
  /-- Port `exec_valid`: a Word is presented in this step. -/
  execValid : Bool
  /-- Port `word`: the Word, of no meaning where `execValid` is false. -/
  word : Word
deriving DecidableEq, Repr

/-- R120: the core has no fault of any kind, so this type has no constructor (log 21). -/
inductive Fault
deriving DecidableEq, Repr

/-- R77, R120: the core refuses nothing (log 21). -/
inductive Refusal where
  /-- The host's name for an instruction without a meaning. No arm of `exec` raises it; it would be safe, a stop. -/
  | notModelled (mnemonic : String)
deriving DecidableEq, Repr

/-- The state: R10's record, then the model's own fields. -/
structure State where
  /-- R11: `x[0]` to `x[15]`. -/
  regs : RegFile
  /-- R21: `M[0x00]` to `M[0xFF]`. -/
  mem : Memory
  /-- R14: the vestigial program counter. -/
  pc : BitVec 8
  /-- R15: the vestigial instruction register. -/
  ir : Word
  /-- R24: `INIT_REG`, the construction parameter that `rst` returns to; no step writes it (log 8). -/
  initRegs : RegFile
  /-- R24: `INIT_MEM`, likewise (log 8). -/
  initMem : Memory
  /-- R23: what the collaborator puts on the input ports in the coming steps, oldest first (log 4). -/
  pending : List PortSample
  /-- R76, R23: what the latest step returned, absent if it executed no Word; an output no step reads (log 5). -/
  status : Option Status
deriving DecidableEq, Repr

/-- R140: reset is the construction of the core, from the parameters `INIT_REG` and `INIT_MEM` (D1). -/
def State.construct (initRegs : RegFile) (initMem : Memory) : State where
  regs := initRegs
  mem := initMem
  pc := Config.pcReset
  ir := Config.irReset
  initRegs := initRegs
  initMem := initMem
  pending := []
  status := none

/-- The core right after reset, for the parameters named in logs 1 and 2. No Word is presented yet (R141). -/
def State.reset : State := State.construct Config.initRegs Config.initMem

end Sys2Proof.Machine
end

