-- ==== Sys2Proof/Machine/Ops.lean ====
section
/-! DEFINITION. The named operations on the state that the meanings share: register and memory access, the returned
status, the discard of a condition.
There is no operation that takes an exception and none that returns from one: the core has no exception, interrupt or
trap (R120 to R125). -/

namespace Sys2Proof.Machine

/-- `x[i]` (R11, R30). -/
def State.readReg (s : State) (i : RegIndex) : Byte := RegFile.read s.regs i.toNat

/-- `x[i] <- v` (R11, R31). -/
def State.writeReg (s : State) (i : RegIndex) (v : Byte) : State :=
  { s with regs := RegFile.store s.regs i.toNat v }

/-- `MemRead(addr, 1)` (R30). -/
def State.readMem (s : State) (addr : Nat) : Byte := Memory.read s.mem addr

/-- `MemWrite(addr, 1, v)` (R31). -/
def State.writeMem (s : State) (addr : Nat) (v : Byte) : State :=
  { s with mem := Memory.store s.mem addr v }

/-- `return status` (R70, R76): the status stands in the state as this step's output (log 5). -/
def State.returning (s : State) (st : Status) : State := { s with status := some st }

/-- `discard cond` (R110, R111): no state element receives the comparison result. -/
def State.discard (s : State) (_cond : Bool) : State := s

end Sys2Proof.Machine
end

