-- ==== Sys2Proof/Machine/Operands.lean ====
section
/-! DEFINITION. The operand forms of R53 and the one addressing mode of R84. -/

namespace Sys2Proof.Machine

/-- R53 (1): a register operand is the field used directly as the register index. -/
def regOperand (s : State) (i : RegIndex) : Byte := s.readReg i

/-- R53 (2): the immediate of opcode 2 is `imm8` as it stands. -/
def immOperand (imm8 : Byte) : Byte := imm8

/-- R53 (3), R84: the effective address is `imm8`, absolute and unsigned. -/
def effectiveAddress (imm8 : Address) : Nat := imm8.toNat

/-- R53 (4): the comparison value of opcodes 11 and 13 is `imm8`; it is no branch target. -/
def comparisonValue (imm8 : Byte) : Byte := imm8

/-- R53 (5): the step count of opcode 10 is `c`, unsigned 0 to 15. -/
def stepCount (c : Steps) : Nat := c.toNat

end Sys2Proof.Machine
end

