-- ==== Sys2Proof/Machine/Arithmetic.lean ====
section
/-! DEFINITION. ALU arithmetic, opcodes 5 and 6 (spec 42_alu_arithmetic.md). -/

namespace Sys2Proof.Machine

/-- R90: `x[a] <- wrap8(sext_8(x[b]) + sext_8(x[c]))`. -/
def execAdds (a b c : RegIndex) (s : State) : Host.Outcome State Fault Refusal :=
  .next ((s.writeReg a (addSigned (regOperand s b) (regOperand s c))).returning .CONTINUE)

/-- R91: `x[a] <- wrap8(x[b] + x[c])`. -/
def execAddq (a b c : RegIndex) (s : State) : Host.Outcome State Fault Refusal :=
  .next ((s.writeReg a (addQ44 (regOperand s b) (regOperand s c))).returning .CONTINUE)

end Sys2Proof.Machine
end

