-- ==== Sys2Proof/Machine/Bitwise.lean ====
section
/-! DEFINITION. ALU bitwise operations and rotate, opcodes 7 to 10 (spec 43_alu_bitwise_rotate.md). -/

namespace Sys2Proof.Machine

/-- R100: `x[a] <- x[b] | x[c]`. -/
def execOr (a b c : RegIndex) (s : State) : Host.Outcome State Fault Refusal :=
  .next ((s.writeReg a (bitOr (regOperand s b) (regOperand s c))).returning .CONTINUE)

/-- R101: `x[a] <- x[b] & x[c]`. -/
def execAnd (a b c : RegIndex) (s : State) : Host.Outcome State Fault Refusal :=
  .next ((s.writeReg a (bitAnd (regOperand s b) (regOperand s c))).returning .CONTINUE)

/-- R102: `x[a] <- x[b] ^ x[c]`. -/
def execXor (a b c : RegIndex) (s : State) : Host.Outcome State Fault Refusal :=
  .next ((s.writeReg a (bitXor (regOperand s b) (regOperand s c))).returning .CONTINUE)

/-- R103: `x[a] <- rotate_right8(x[a], c)`. -/
def execRor (a : RegIndex) (steps : Steps) (s : State) : Host.Outcome State Fault Refusal :=
  .next ((s.writeReg a (rotateRight8 (regOperand s a) (stepCount steps))).returning .CONTINUE)

end Sys2Proof.Machine
end

