-- ==== Sys2Proof/Machine/Flags.lean ====
section
/-! DEFINITION. The hardware has no flags, condition codes or predicates (R17). What it computes in their place are
the two comparison results of R114, which no state element receives. -/

namespace Sys2Proof.Machine

/-- R114: `cmp_eq`, equality of 8-bit patterns. -/
def cmpEq (p q : Byte) : Bool := p == q

/-- R114: `cmp_gt_signed`, register on the left by the spec's own decision D5 (log 11). -/
def cmpGtSigned (p q : Byte) : Bool := decide (sext8 p > sext8 q)

end Sys2Proof.Machine
end

