-- ==== Sys2Proof/Machine/CompareHalt.lean ====
section
/-! DEFINITION. The inert jumps and halt, opcodes 11 to 13 (spec 44_compare_halt.md). No instruction transfers
control (R113). -/

namespace Sys2Proof.Machine

/-- R110: the condition is evaluated and discarded. -/
def execJeq (a : RegIndex) (val : Byte) (s : State) : Host.Outcome State Fault Refusal :=
  .next ((s.discard (cmpEq (regOperand s a) (comparisonValue val))).returning .CONTINUE)

/-- R112: only the returned status tells it from a no-op; nothing is latched (R76, D6; log 12). -/
def execHalt (s : State) : Host.Outcome State Fault Refusal := .next (s.returning .HALT)

/-- R111: the signed condition is evaluated and discarded. -/
def execJgt (a : RegIndex) (val : Byte) (s : State) : Host.Outcome State Fault Refusal :=
  .next ((s.discard (cmpGtSigned (regOperand s a) (comparisonValue val))).returning .CONTINUE)

end Sys2Proof.Machine
end

