-- ==== Sys2Proof/Machine/DataMovement.lean ====
section
/-! DEFINITION. Data movement, opcodes 1 to 4 (spec 41_data_movement.md). -/

namespace Sys2Proof.Machine

/-- R80: `x[a] <- MemRead(imm8, 1)`. -/
def execLdm (a : RegIndex) (addr : Address) (s : State) : Host.Outcome State Fault Refusal :=
  .next ((s.writeReg a (s.readMem (effectiveAddress addr))).returning .CONTINUE)

/-- R81: `x[a] <- imm8`. -/
def execLdi (a : RegIndex) (imm : Byte) (s : State) : Host.Outcome State Fault Refusal :=
  .next ((s.writeReg a (immOperand imm)).returning .CONTINUE)

/-- R82: `MemWrite(imm8, 1, x[a])`. -/
def execStm (a : RegIndex) (addr : Address) (s : State) : Host.Outcome State Fault Refusal :=
  .next ((s.writeMem (effectiveAddress addr) (regOperand s a)).returning .CONTINUE)

/-- R83: `x[a] <- x[c]`. -/
def execMov (a c : RegIndex) (s : State) : Host.Outcome State Fault Refusal :=
  .next ((s.writeReg a (regOperand s c)).returning .CONTINUE)

end Sys2Proof.Machine
end

