-- ==== Sys2Proof/Machine/NoOps.lean ====
section
/-! DEFINITION. The three opcodes without a handler (spec 40_decode_dispatch.md section 2). -/

namespace Sys2Proof.Machine

/-- R72: the permanent no-op slot, opcode 0. -/
def execNop0 (s : State) : Host.Outcome State Fault Refusal := .next (s.returning .CONTINUE)

/-- R73: opcode 14, unassigned. -/
def execNop14 (s : State) : Host.Outcome State Fault Refusal := .next (s.returning .CONTINUE)

/-- R74: opcode 15, unassigned. -/
def execNop15 (s : State) : Host.Outcome State Fault Refusal := .next (s.returning .CONTINUE)

end Sys2Proof.Machine
end

