-- ==== Sys2Proof/Machine/Dispatch.lean ====
section
/-! DEFINITION. Dispatch (R70, R71): one arm per instruction, each a direct call of its meaning. -/

namespace Sys2Proof.Machine

/-- R71: exactly one handler runs per `Execute`, or, for opcodes 0, 14 and 15, a no-op. -/
def exec (i : Instr) (s : State) : Host.Outcome State Fault Refusal :=
  match i with
  | .nop0 => Sys2Proof.Machine.execNop0 s
  | .ldm a addr => Sys2Proof.Machine.execLdm a addr s
  | .ldi a imm => Sys2Proof.Machine.execLdi a imm s
  | .stm a addr => Sys2Proof.Machine.execStm a addr s
  | .mov a c => Sys2Proof.Machine.execMov a c s
  | .adds a b c => Sys2Proof.Machine.execAdds a b c s
  | .addq a b c => Sys2Proof.Machine.execAddq a b c s
  | .or a b c => Sys2Proof.Machine.execOr a b c s
  | .and a b c => Sys2Proof.Machine.execAnd a b c s
  | .xor a b c => Sys2Proof.Machine.execXor a b c s
  | .ror a steps => Sys2Proof.Machine.execRor a steps s
  | .jeq a val => Sys2Proof.Machine.execJeq a val s
  | .halt => Sys2Proof.Machine.execHalt s
  | .jgt a val => Sys2Proof.Machine.execJgt a val s
  | .nop14 => Sys2Proof.Machine.execNop14 s
  | .nop15 => Sys2Proof.Machine.execNop15 s

end Sys2Proof.Machine
end

