-- ==== Sys2Proof/Machine/Boundary.lean ====
section
/-! DEFINITION. The core's boundary (R5, R20, R23, R59, R147, R148): `Execute`, the input ports and what one step does
with a sample of them, the output port, the snapshot, the loader's token, a run. -/

namespace Sys2Proof.Machine

/-- R70: `Execute(word)`; the returned status is in the next state's `status`. -/
def execute (w : Word) (s : State) : Host.Outcome State Fault Refusal := exec (decode w) s

/-- R23, R141: a step in which no Word is presented; the core does nothing and returns no status (log 6). -/
def idle (s : State) : State := { s with status := none }

/-- R23, R140: `rst` puts the record of R10 in its reset state (D7). -/
def resetCore (s : State) : State :=
  { s with regs := s.initRegs, mem := s.initMem, pc := Config.pcReset, ir := Config.irReset }

/-- The state in an outcome after `rst`, where it is asserted. -/
def applyRst (rst : Bool) : Host.Outcome State Fault Refusal → Host.Outcome State Fault Refusal
  | .next t => .next (if rst then resetCore t else t)
  | .fault r => .fault r
  | .refused r => .refused r

/-- `Execute` where a Word is presented, else nothing. -/
def applyWord (p : PortSample) (s : State) : Host.Outcome State Fault Refusal :=
  if p.execValid then execute p.word s else .next (idle s)

/-- One step: the core takes the oldest sample of its input ports; with none left it idles (R23, R146; logs 4, 6, 7,
22). Where `rst` comes with a Word, the status is the Word's and the state is the reset state (log 7). -/
def clockStep (s : State) : Host.Outcome State Fault Refusal :=
  match s.pending with
  | [] => .next (idle s)
  | p :: rest => applyRst p.rst (applyWord p { s with pending := rest })

/-- R148: the sample by which the collaborator presents a Word. -/
def presents (w : Word) : PortSample := ⟨false, true, w⟩

/-- The state in which the next step takes the Word `w` first. -/
def State.presentFirst (s : State) (w : Word) : State := { s with pending := presents w :: s.pending }

/-- R59, R148: the loader presents the Word of a valid token after all that is pending; another token never reaches
the core (log 20). -/
def State.offerToken (s : State) (token : List Char) : State :=
  match parseToken token with
  | .ok w => { s with pending := s.pending ++ [presents w] }
  | .error _ => s

/-- R23: the `halt` output port, 1 exactly when this step executed a Word of opcode 12. -/
def State.haltPort (s : State) : Bool := s.status == some .HALT

/-- R23: `snap_reg_data` for a `snap_reg_idx`. -/
def State.snapRegData (s : State) (idx : BitVec 4) : Byte := s.readReg idx

/-- R23: `snap_mem_data` for a `snap_mem_addr`. -/
def State.snapMemData (s : State) (addr : BitVec 8) : Byte := s.readMem addr.toNat

/-- R20: the snapshot of the 16 registers, in index order. -/
def State.snapshotRegs (s : State) : List Byte := (List.range 16).map (fun i => s.snapRegData (BitVec.ofNat 4 i))

/-- R20: the snapshot of the 256 memory bytes, in address order. -/
def State.snapshotMem (s : State) : List Byte := (List.range 256).map (fun n => s.snapMemData (BitVec.ofNat 8 n))

/-- R41: Words executed one at a time in the order presented; a `HALT` does not stop the core (R76, D6). -/
def executeAll : List Word → State → Host.Outcome State Fault Refusal
  | [], s => .next s
  | w :: ws, s =>
    match execute w s with
    | .next t => executeAll ws t
    | .fault r => .fault r
    | .refused r => .refused r

/-- R147: a run of a program, for the spec's test programs only (D9; log 15): Words in list order, ending after the
first `HALT`. It is no part of `step`. -/
def runProgram : List Word → State → Host.Outcome State Fault Refusal
  | [], s => .next s
  | w :: ws, s =>
    match execute w s with
    | .next t => if t.haltPort then .next t else runProgram ws t
    | .fault r => .fault r
    | .refused r => .refused r

end Sys2Proof.Machine
end

