-- ==== Sys2Proof/Machine/Step.lean ====
section
/-! DEFINITION. The step of the machine, and how the host places the next instruction (log 4, log 23). -/

namespace Sys2Proof.Machine

/-- One step: one sample of the input ports (Machine/Boundary.lean). -/
def step (s : State) : Host.Outcome State Fault Refusal := clockStep s

/-- The core fetches nothing from memory (R45): the next instruction is the Word presented next. -/
def State.withFetchWord (s : State) (nbits w : Nat) : State :=
  s.presentFirst (BitVec.ofNat 16 (w % 2 ^ nbits))

end Sys2Proof.Machine
end

