-- ==== Sys2Proof/Machine/Control.lean ====
section
/-! DEFINITION. The decoder's control outputs and the datapath they drive (R47, R62), the spec's own rendering of the
opcode table as hardware signals (D7; log 16). `step` does not use this file: that the datapath computes what
`Execute` does is a statement. A don't-care is `none`. -/

namespace Sys2Proof.Machine

/-- R62, column "ALU function". -/
inductive AluFunction where
  /-- Pass read port A. -/
  | passA
  /-- R90. -/
  | add
  /-- R91. -/
  | addQ44
  /-- R100. -/
  | or
  /-- R101. -/
  | and
  /-- R102. -/
  | xor
  /-- R103. -/
  | rotateRight
  /-- R114, R110. -/
  | compareEqual
  /-- R114, R111. -/
  | compareGreaterSigned
deriving DecidableEq, Repr

/-- R62: where the ALU's second operand comes from. -/
inductive SecondOperand where
  /-- Register read port B. -/
  | portB
  /-- The field `c`, as a shift amount. -/
  | shiftAmount
  /-- The field `imm8`. -/
  | imm8
deriving DecidableEq, Repr

/-- R62, column "write-back source". -/
inductive WriteBack where
  /-- `MemRead(imm8, 1)`. -/
  | memory
  /-- `imm8`. -/
  | imm8
  /-- Register read port A. -/
  | portA
  /-- The ALU's result. -/
  | alu
  /-- The ALU's result, received by nothing. -/
  | discarded
deriving DecidableEq, Repr

/-- R62: the decoder's outputs. -/
structure Control where
  /-- Index of register read port A. -/
  portA : Option RegIndex
  /-- Index of register read port B. -/
  portB : Option RegIndex
  /-- The ALU function. -/
  alu : Option AluFunction
  /-- The ALU's second operand. -/
  second : Option SecondOperand
  /-- The write-back source. -/
  writeBack : Option WriteBack
  /-- Index of the register write port. -/
  writeIndex : Option RegIndex
  /-- Register write enable. -/
  regWe : Bool
  /-- Memory read enable. -/
  memRe : Bool
  /-- Memory write enable. -/
  memWe : Bool
  /-- The `halt` output. -/
  halt : Bool
deriving DecidableEq, Repr

/-- The row of R62 for opcodes 0, 14 and 15: nothing is driven. -/
def Control.none : Control := ⟨.none, .none, .none, .none, .none, .none, false, false, false, false⟩

/-- The rows of R62 for the three-register ALU operations. -/
def Control.threeReg (f : AluFunction) (a b c : RegIndex) : Control :=
  ⟨some b, some c, some f, some .portB, some .alu, some a, true, false, false, false⟩

/-- R62: the decoder's outputs, a function of the Word alone. -/
def controlOf (w : Word) : Control :=
  let a := aField w
  let b := bField w
  let c := cField w
  match (opField w).toNat with
  | 0 => Control.none
  | 1 => ⟨none, none, none, none, some .memory, some a, true, true, false, false⟩
  | 2 => ⟨none, none, none, none, some .imm8, some a, true, false, false, false⟩
  | 3 => ⟨some a, none, none, none, none, none, false, false, true, false⟩
  | 4 => ⟨some c, none, some .passA, none, some .portA, some a, true, false, false, false⟩
  | 5 => Control.threeReg .add a b c
  | 6 => Control.threeReg .addQ44 a b c
  | 7 => Control.threeReg .or a b c
  | 8 => Control.threeReg .and a b c
  | 9 => Control.threeReg .xor a b c
  | 10 => ⟨some a, none, some .rotateRight, some .shiftAmount, some .alu, some a, true, false, false, false⟩
  | 11 => ⟨some a, none, some .compareEqual, some .imm8, some .discarded, none, false, false, false, false⟩
  | 12 => ⟨none, none, none, none, none, none, false, false, false, true⟩
  | 13 => ⟨some a, none, some .compareGreaterSigned, some .imm8, some .discarded, none, false, false, false, false⟩
  | 14 => Control.none
  | _ => Control.none

/-- What the ALU puts on its result bus. The two comparisons give one bit, widened to a Byte; nothing receives it
(log 16). -/
def aluResult (f : AluFunction) (p q : Byte) : Byte :=
  match f with
  | .passA => p
  | .add => addSigned p q
  | .addQ44 => addQ44 p q
  | .or => bitOr p q
  | .and => bitAnd p q
  | .xor => bitXor p q
  | .rotateRight => rotateRight8 p q.toNat
  | .compareEqual => (BitVec.ofBool (cmpEq p q)).setWidth 8
  | .compareGreaterSigned => (BitVec.ofBool (cmpGtSigned p q)).setWidth 8

/-- A register read port; a port that is not driven is read by nothing, and carries 0x00 here (log 16). -/
def readPort (s : State) (idx : Option RegIndex) : Byte :=
  match idx with
  | some i => s.readReg i
  | none => 0x00#8

/-- The ALU's second operand. -/
def secondOperand (k : Control) (w : Word) (s : State) : Byte :=
  match k.second with
  | some .portB => readPort s k.portB
  | some .shiftAmount => (cField w).setWidth 8
  | some .imm8 => imm8Field w
  | none => 0x00#8

/-- The memory read port: its data where `mem_re` is 1, else not driven. -/
def memReadPort (k : Control) (w : Word) (s : State) : Byte :=
  if k.memRe then s.readMem (effectiveAddress (imm8Field w)) else 0x00#8

/-- The ALU's result bus under the control outputs. -/
def aluBus (k : Control) (w : Word) (s : State) : Byte :=
  match k.alu with
  | some f => aluResult f (readPort s k.portA) (secondOperand k w s)
  | none => 0x00#8

/-- The write-back multiplexer. -/
def writeBackBus (k : Control) (w : Word) (s : State) : Byte :=
  match k.writeBack with
  | some .memory => memReadPort k w s
  | some .imm8 => imm8Field w
  | some .portA => readPort s k.portA
  | some .alu => aluBus k w s
  | some .discarded => 0x00#8
  | none => 0x00#8

/-- The register write port. -/
def regWritePort (k : Control) (v : Byte) (s : State) : State :=
  match k.regWe, k.writeIndex with
  | true, some i => s.writeReg i v
  | _, _ => s

/-- The memory write port, address `imm8`. -/
def memWritePort (k : Control) (w : Word) (v : Byte) (s : State) : State :=
  if k.memWe then s.writeMem (effectiveAddress (imm8Field w)) v else s

/-- R62, R75: every read is made on the state before the writes. -/
def datapath (w : Word) (s : State) : State :=
  let k := controlOf w
  let v := writeBackBus k w s
  let p := readPort s k.portA
  (memWritePort k w p (regWritePort k v s)).returning (if k.halt then .HALT else .CONTINUE)

end Sys2Proof.Machine
end

