-- ==== Sys2Proof/WellFormed.lean ====
section
/-! DEFINITION. What is well-formed.
An instruction needs no check: its operands are bit vectors of exactly their fields' widths, so a register index is
always in bounds (R13) and every term is the decoding of some Word (R57). What can be ill-formed is the text that a
loader offers (R59). -/

namespace Sys2Proof

/-- R57: there are no illegal encodings, so every instruction is well-formed, constructor by constructor. -/
def Instr.wellFormed : Instr → Bool
  | .nop0 => true
  | .ldm _ _ => true
  | .ldi _ _ => true
  | .stm _ _ => true
  | .mov _ _ => true
  | .adds _ _ _ => true
  | .addq _ _ _ => true
  | .or _ _ _ => true
  | .and _ _ _ => true
  | .xor _ _ _ => true
  | .ror _ _ => true
  | .jeq _ _ => true
  | .halt => true
  | .jgt _ _ => true
  | .nop14 => true
  | .nop15 => true

/-- R59: "exactly 4 hexadecimal digits (case-insensitive)". -/
def tokenWellFormed (token : List Char) : Bool :=
  token.length == 4 && token.all (fun ch => (hexDigit? ch).isSome)

end Sys2Proof
end

