-- ==== Sys2Proof/Safety.lean ====
section
/-! DEFINITION. The terms the claims use: what a safe run is, the invariant, what each instruction reads and writes
(the table under R13, R35), and the frame predicates. -/

namespace Sys2Proof.Machine

/-- A safe step answers a next state: no fault, no refusal (R77, R120). -/
def SafeStep (s : State) : Prop := ∃ t, step s = .next t

/-- What every run from a construction of the core keeps. -/
structure State.Inv (s : State) : Prop where
  /-- Main memory is in its canonical form (log 24). -/
  memCanonical : s.mem.wf = true
  /-- So are the contents that `rst` returns to. -/
  initMemCanonical : s.initMem.wf = true
  /-- R14: "It holds its reset value for ever." -/
  pcAtReset : s.pc = Config.pcReset
  /-- R15: likewise. -/
  irAtReset : s.ir = Config.irReset

/-- The states of the runs of a core constructed from `initRegs` and `initMem`, whatever is presented to it: between
two steps the outside may put any samples on the input ports of the steps to come (R148). -/
inductive Reachable (initRegs : RegFile) (initMem : Memory) : State → Prop where
  | constructed : Reachable initRegs initMem (State.construct initRegs initMem)
  | presented {s : State} (samples : List PortSample) (h : Reachable initRegs initMem s) :
      Reachable initRegs initMem { s with pending := samples }
  | stepped {s t : State} (h : Reachable initRegs initMem s) (hstep : step s = .next t) :
      Reachable initRegs initMem t

end Sys2Proof.Machine

namespace Sys2Proof

/-- The table under R13, column "registers read". -/
def Instr.readRegs : Instr → List RegIndex
  | .nop0 => []
  | .ldm _ _ => []
  | .ldi _ _ => []
  | .stm a _ => [a]
  | .mov _ c => [c]
  | .adds _ b c => [b, c]
  | .addq _ b c => [b, c]
  | .or _ b c => [b, c]
  | .and _ b c => [b, c]
  | .xor _ b c => [b, c]
  | .ror a _ => [a]
  | .jeq a _ => [a]
  | .halt => []
  | .jgt a _ => [a]
  | .nop14 => []
  | .nop15 => []

/-- The table under R13, column "register written". -/
def Instr.writtenReg : Instr → Option RegIndex
  | .nop0 => none
  | .ldm a _ => some a
  | .ldi a _ => some a
  | .stm _ _ => none
  | .mov a _ => some a
  | .adds a _ _ => some a
  | .addq a _ _ => some a
  | .or a _ _ => some a
  | .and a _ _ => some a
  | .xor a _ _ => some a
  | .ror a _ => some a
  | .jeq _ _ => none
  | .halt => none
  | .jgt _ _ => none
  | .nop14 => none
  | .nop15 => none

/-- R35, R38: the one byte of main memory an instruction reads, if any. -/
def Instr.loadedAddress : Instr → Option Nat
  | .nop0 => none
  | .ldm _ addr => some (Machine.effectiveAddress addr)
  | .ldi _ _ => none
  | .stm _ _ => none
  | .mov _ _ => none
  | .adds _ _ _ => none
  | .addq _ _ _ => none
  | .or _ _ _ => none
  | .and _ _ _ => none
  | .xor _ _ _ => none
  | .ror _ _ => none
  | .jeq _ _ => none
  | .halt => none
  | .jgt _ _ => none
  | .nop14 => none
  | .nop15 => none

/-- R35, R38: the one byte of main memory an instruction writes, if any. -/
def Instr.storedAddress : Instr → Option Nat
  | .nop0 => none
  | .ldm _ _ => none
  | .ldi _ _ => none
  | .stm _ addr => some (Machine.effectiveAddress addr)
  | .mov _ _ => none
  | .adds _ _ _ => none
  | .addq _ _ _ => none
  | .or _ _ _ => none
  | .and _ _ _ => none
  | .xor _ _ _ => none
  | .ror _ _ => none
  | .jeq _ _ => none
  | .halt => none
  | .jgt _ _ => none
  | .nop14 => none
  | .nop15 => none

end Sys2Proof

namespace Sys2Proof.Machine

/-- What no instruction changes: `pc`, `ir` (R14, R15), the construction parameters and what is presented next. -/
structure KeepsRest (s t : State) : Prop where
  /-- R14. -/
  pc : t.pc = s.pc
  /-- R15. -/
  ir : t.ir = s.ir
  /-- Log 8. -/
  initRegs : t.initRegs = s.initRegs
  /-- Log 8. -/
  initMem : t.initMem = s.initMem
  /-- Log 4. -/
  pending : t.pending = s.pending

/-- From `s` to `t` the register `a` takes the value `v`; no other register, no byte of memory and nothing of
`KeepsRest` changes. The status is not spoken of. -/
structure WritesRegister (a : RegIndex) (v : Byte) (s t : State) : Prop where
  /-- The new value. -/
  written : t.readReg a = v
  /-- Every other register. -/
  otherRegs : ∀ r : RegIndex, r ≠ a → t.readReg r = s.readReg r
  /-- Every byte of memory. -/
  memory : ∀ n : Nat, t.readMem n = s.readMem n
  /-- The rest. -/
  rest : KeepsRest s t

/-- From `s` to `t` the memory byte at `addr` takes the value `v`; no other byte, no register and nothing of
`KeepsRest` changes. The status is not spoken of. -/
structure WritesByte (addr : Nat) (v : Byte) (s t : State) : Prop where
  /-- The new value. -/
  written : t.readMem addr = v
  /-- Every other byte of memory. -/
  otherBytes : ∀ n : Nat, n ≠ addr → t.readMem n = s.readMem n
  /-- Every register. -/
  registers : ∀ r : RegIndex, t.readReg r = s.readReg r
  /-- The rest. -/
  rest : KeepsRest s t

/-- From `s` to `t` no register, no byte of memory and nothing of `KeepsRest` changes. The status is not spoken of. -/
structure WritesNothing (s t : State) : Prop where
  /-- Every register. -/
  registers : ∀ r : RegIndex, t.readReg r = s.readReg r
  /-- Every byte of memory. -/
  memory : ∀ n : Nat, t.readMem n = s.readMem n
  /-- The rest. -/
  rest : KeepsRest s t

end Sys2Proof.Machine
end

