-- ==== Sys2Proof/Certificates/Slice0/Obligations.lean ====
section
/-! DEFINITION. The statements for the provers. Each is a rule of spec/ or rests on the sections its docstring names.
Frames speak of reads: `readReg` of one register, `readMem` of one byte. The predicates `WritesRegister`, `WritesByte`,
`WritesNothing` and `KeepsRest` are in Safety.lean. -/

open Sys2Proof
open Sys2Proof.Machine

/-! ### Encoding -/

/-- R50, R51, R54: words of spec 95_test_vectors.md section 2.1, and one word of each remaining opcode, written out by
hand from the encodings of R60. A sanity check of single words. -/
def Obligations.SampleWordsDecode : Prop :=
  decode 0b0000000000000000#16 = .nop0 ∧
  decode 0b0001101000001010#16 = .ldm 10#4 0x0A#8 ∧
  decode 0b0010101000000101#16 = .ldi 10#4 0x05#8 ∧
  decode 0b0011001101000000#16 = .stm 3#4 0x40#8 ∧
  decode 0b0100001011110001#16 = .mov 2#4 1#4 ∧
  decode 0b0101001100010010#16 = .adds 3#4 1#4 2#4 ∧
  decode 0b0110011001000101#16 = .addq 6#4 4#4 5#4 ∧
  decode 0b0111001100010010#16 = .or 3#4 1#4 2#4 ∧
  decode 0b1000010000010010#16 = .and 4#4 1#4 2#4 ∧
  decode 0b1001010100010010#16 = .xor 5#4 1#4 2#4 ∧
  decode 0b1010101111001101#16 = .ror 11#4 13#4 ∧
  decode 0b1011000100000111#16 = .jeq 1#4 0x07#8 ∧
  decode 0b1100101010111100#16 = .halt ∧
  decode 0b1101000111111111#16 = .jgt 1#4 0xFF#8 ∧
  decode 0b1110000100100011#16 = .nop14 ∧
  decode 0b1111111111111111#16 = .nop15

/-- R54, R60: decoding the canonical Word of a well-formed instruction gives the instruction back, for every
instruction and every value of its operands. -/
def Obligations.DecodeOfEncodeIsIdentity : Prop :=
  ∀ i : Instr, i.wellFormed = true → decode (encode i) = i

/-- R52, R55, R60: encoding what a Word decodes to gives the Word with 0 in the bits its format ignores. -/
def Obligations.EncodeOfDecodeClearsIgnoredBits : Prop :=
  ∀ w : Word, encode (decode w) = w &&& (decode w).format.usedBits

/-- R55: a bit that the format does not use has no effect whatever: two Words of one opcode that agree on the bits their
format uses are executed alike in every state. Bits 7:4 for opcodes 4 and 10, bits 11:0 for 0, 12, 14 and 15. -/
def Obligations.IgnoredBitsHaveNoEffect : Prop :=
  (∀ w w' : Word, w &&& 0xFF0F#16 = w' &&& 0xFF0F#16 → opField w = 4#4 ∨ opField w = 10#4 →
    ∀ s : State, execute w s = execute w' s) ∧
  (∀ w w' : Word, w &&& 0xF000#16 = w' &&& 0xF000#16 →
    opField w = 0#4 ∨ opField w = 12#4 ∨ opField w = 14#4 ∨ opField w = 15#4 →
    ∀ s : State, execute w s = execute w' s)

/-- R50, R54: every Word is selected by exactly one row of the opcode table, by mask 0xF000 and match `op << 12`; that
row has the mnemonic, the format and the opcode of the instruction the decoder reads; and exactly the 13 opcodes 1 to
13 have handlers. -/
def Obligations.OneTableRowSelectsEachWord : Prop :=
  opcodeTable.length = 16 ∧
  (opcodeTable.filter (fun r => r.hasHandler)).map (fun r => r.op.toNat) = [1, 2, 3, 4, 5, 6, 7, 8, 9, 10, 11, 12, 13] ∧
  (∀ r ∈ opcodeTable, r.mask = 0xF000#16 ∧ r.pattern.toNat = r.op.toNat * 2 ^ 12) ∧
  ∀ w : Word, ∃ r ∈ opcodeTable,
    (∀ r' ∈ opcodeTable, r'.selects w = true ↔ r' = r) ∧
    r.op = opField w ∧ r.op = (decode w).opcode ∧ r.mnemonic = (decode w).mnemonic ∧ r.format = (decode w).format

/-- R59: a token of exactly four hexadecimal digits, in either case, is the Word with the first digit in bits 15:12;
every other text is rejected. -/
def Obligations.TokenIsFourHexDigits : Prop :=
  (∀ (d3 d2 d1 d0 : Char) (v3 v2 v1 v0 : BitVec 4), hexDigit? d3 = some v3 → hexDigit? d2 = some v2 →
    hexDigit? d1 = some v1 → hexDigit? d0 = some v0 →
    ∃ w, parseToken [d3, d2, d1, d0] = .ok w ∧
      w.toNat = v3.toNat * 4096 + v2.toNat * 256 + v1.toNat * 16 + v0.toNat) ∧
  (∀ (v : BitVec 4) (ch : Char), hexDigit? ch = some v ↔
    ch = ['0', '1', '2', '3', '4', '5', '6', '7', '8', '9', 'a', 'b', 'c', 'd', 'e', 'f'].getD v.toNat ' ' ∨
    ch = ['0', '1', '2', '3', '4', '5', '6', '7', '8', '9', 'A', 'B', 'C', 'D', 'E', 'F'].getD v.toNat ' ') ∧
  (∀ token : List Char, tokenWellFormed token = false → ∃ why, parseToken token = .error why)

/-! ### Value functions -/

/-- R3: `wrap8(n)` is the non-negative remainder modulo 256, for every mathematical integer. -/
def Obligations.WrapIsRemainderModulo256 : Prop :=
  ∀ n : Int, ((wrap8 n).toNat : Int) = n % 256

/-- R4, R93: `sext_8(v)` lies in -128 to 127 and differs from `v` by a multiple of 256, so that the signed and the
unsigned sum wrap to the same Byte. The formula of R4 is the spec's general knowledge (G1, log 14). -/
def Obligations.SignedAndUnsignedSumsWrapAlike : Prop :=
  (∀ v : Byte, -128 ≤ sext8 v ∧ sext8 v ≤ 127 ∧ sext8 v % 256 = (v.toNat : Int)) ∧
  ∀ p q : Byte, wrap8 (sext8 p + sext8 q) = wrap8 ((p.toNat : Int) + (q.toNat : Int))

/-- R91, R94: the closed form of the Q4.4 add is the one the source describes on rationals, truncating cast included;
and where the sum is below 16.0 its Q4.4 value is the exact sum. The unsigned reading and the wrap of larger sums are
the spec's own decision D4 (log 10). -/
def Obligations.FixedPointAddIsExactBelowSixteen : Prop :=
  (∀ p q : Byte, addQ44Rational p q = addQ44 p q) ∧
  ∀ p q : Byte, q44 p + q44 q < 16 → q44 (addQ44 p q) = q44 p + q44 q

/-- R114: the two comparisons, the second on two's-complement readings; it orders 0x80 below 0x7F. The operand order is
the spec's own decision D5 (log 11), and no instruction delivers either result. -/
def Obligations.ComparisonsFollowTheReadings : Prop :=
  (∀ p q : Byte, cmpEq p q = true ↔ p = q) ∧
  (∀ p q : Byte, cmpGtSigned p q = true ↔ BitVec.slt q p = true) ∧
  ∀ v : Byte, cmpGtSigned v v = false

/-! ### Data movement -/

/-- R80: LDM. Every Word of match 0x1000 under mask 0xF000 is an LDM; it writes the byte at the absolute address `imm8`
to register `a` and changes nothing else (R80 gives no other effect). -/
def Obligations.LdmLoadsByte : Prop :=
  (∀ w : Word, w &&& 0xF000#16 = 0x1000#16 → decode w = .ldm (w.extractLsb' 8 4) (w.extractLsb' 0 8)) ∧
  ∀ (a : RegIndex) (addr : Address) (s : State), ∃ t, exec (.ldm a addr) s = .next t ∧
    WritesRegister a (s.readMem addr.toNat) s t

/-- R81: LDI. Every Word of match 0x2000 under mask 0xF000 is an LDI; it writes `imm8` as it stands to register `a` and
changes nothing else. -/
def Obligations.LdiLoadsImmediate : Prop :=
  (∀ w : Word, w &&& 0xF000#16 = 0x2000#16 → decode w = .ldi (w.extractLsb' 8 4) (w.extractLsb' 0 8)) ∧
  ∀ (a : RegIndex) (imm : Byte) (s : State), ∃ t, exec (.ldi a imm) s = .next t ∧ WritesRegister a imm s t

/-- R82: STM. Every Word of match 0x3000 under mask 0xF000 is an STM; it stores register `a` at the absolute address
`imm8`, which is the address the meaning computes, and changes nothing else. Memory is in its canonical form (log 24),
which `StepKeepsInvariant` and `ConstructedCoreMeetsInvariant` give of every run. -/
def Obligations.StmStoresByte : Prop :=
  (∀ w : Word, w &&& 0xF000#16 = 0x3000#16 → decode w = .stm (w.extractLsb' 8 4) (w.extractLsb' 0 8)) ∧
  ∀ (a : RegIndex) (addr : Address) (s : State), s.mem.wf = true → ∃ t, exec (.stm a addr) s = .next t ∧
    effectiveAddress addr = addr.toNat ∧ WritesByte (effectiveAddress addr) (s.readReg a) s t

/-- R83: MOV. Every Word of match 0x4000 under mask 0xF000 is a MOV, bits 7:4 ignored; it copies register `c` to
register `a` and changes nothing else; with `a = c` no register changes. -/
def Obligations.MovCopiesRegister : Prop :=
  (∀ w : Word, w &&& 0xF000#16 = 0x4000#16 → decode w = .mov (w.extractLsb' 8 4) (w.extractLsb' 0 4)) ∧
  (∀ (a c : RegIndex) (s : State), ∃ t, exec (.mov a c) s = .next t ∧ WritesRegister a (s.readReg c) s t) ∧
  ∀ (a : RegIndex) (s : State), ∃ t, exec (.mov a a) s = .next t ∧ WritesNothing s t

/-- R41, R80, R82: a byte stored by one Word is what the next Word loads from that address, and another address loads
what it held before. Memory is in its canonical form (log 24). -/
def Obligations.LoadAfterStore : Prop :=
  ∀ (a b : RegIndex) (addr addr' : Address) (s : State), s.mem.wf = true →
    ∃ t u, exec (.stm a addr) s = .next t ∧ exec (.ldm b addr') t = .next u ∧
      u.readReg b = if addr' = addr then s.readReg a else s.readMem addr'.toNat

/-! ### ALU -/

/-- R90: ADDS. Every Word of match 0x5000 under mask 0xF000 is an ADDS; it writes `wrap8(sext_8(x[b]) + sext_8(x[c]))`,
which is the 8-bit sum, of the old values (`a` may be `b` or `c`), and changes nothing else. -/
def Obligations.AddsAddsModulo256 : Prop :=
  (∀ w : Word, w &&& 0xF000#16 = 0x5000#16 →
    decode w = .adds (w.extractLsb' 8 4) (w.extractLsb' 4 4) (w.extractLsb' 0 4)) ∧
  ∀ (a b c : RegIndex) (s : State), ∃ t, exec (.adds a b c) s = .next t ∧
    WritesRegister a (wrap8 (sext8 (s.readReg b) + sext8 (s.readReg c))) s t ∧
    t.readReg a = s.readReg b + s.readReg c

/-- R91: ADDQ, over all operands the 8-bit sum; that a sum of 256 or more wraps is the spec's own decision D4 (log 10).
Every Word of match 0x6000 under mask 0xF000 is an ADDQ; it changes nothing else. -/
def Obligations.AddqAddsModulo256 : Prop :=
  (∀ w : Word, w &&& 0xF000#16 = 0x6000#16 →
    decode w = .addq (w.extractLsb' 8 4) (w.extractLsb' 4 4) (w.extractLsb' 0 4)) ∧
  ∀ (a b c : RegIndex) (s : State), ∃ t, exec (.addq a b c) s = .next t ∧
    WritesRegister a (s.readReg b + s.readReg c) s t

/-- R91, R93: ADDQ and ADDS are the same transformer of states ("`ADDQ` and `ADDS` compute the same function on bit
patterns"); rests on D4 for sums of 256 or more (log 10). -/
def Obligations.AddqAndAddsAgree : Prop :=
  ∀ (a b c : RegIndex) (s : State), exec (.addq a b c) s = exec (.adds a b c) s

/-- R100, R101, R102: OR, AND and XOR. Every Word of match 0x7000, 0x8000, 0x9000 under mask 0xF000 is one; each writes
the operation on the old values of `x[b]` and `x[c]` to register `a` and changes nothing else. -/
def Obligations.BitwiseOperations : Prop :=
  (∀ w : Word, w &&& 0xF000#16 = 0x7000#16 →
    decode w = .or (w.extractLsb' 8 4) (w.extractLsb' 4 4) (w.extractLsb' 0 4)) ∧
  (∀ w : Word, w &&& 0xF000#16 = 0x8000#16 →
    decode w = .and (w.extractLsb' 8 4) (w.extractLsb' 4 4) (w.extractLsb' 0 4)) ∧
  (∀ w : Word, w &&& 0xF000#16 = 0x9000#16 →
    decode w = .xor (w.extractLsb' 8 4) (w.extractLsb' 4 4) (w.extractLsb' 0 4)) ∧
  ∀ (a b c : RegIndex) (s : State),
    (∃ t, exec (.or a b c) s = .next t ∧ WritesRegister a (s.readReg b ||| s.readReg c) s t) ∧
    (∃ t, exec (.and a b c) s = .next t ∧ WritesRegister a (s.readReg b &&& s.readReg c) s t) ∧
    (∃ t, exec (.xor a b c) s = .next t ∧ WritesRegister a (s.readReg b ^^^ s.readReg c) s t)

/-- R103, R104: ROR. Every Word of match 0xA000 under mask 0xF000 is a ROR, bits 7:4 ignored; bit `i` of the register
becomes its old bit `(i + steps) mod 8`, and nothing else changes. For 8 to 15 steps this is the spec's own decision D3
(log 9), and the direction is its general knowledge (G3, log 14). -/
def Obligations.RorRotatesTowardBitZero : Prop :=
  (∀ w : Word, w &&& 0xF000#16 = 0xA000#16 → decode w = .ror (w.extractLsb' 8 4) (w.extractLsb' 0 4)) ∧
  ∀ (a : RegIndex) (steps : Steps) (s : State), ∃ t v, exec (.ror a steps) s = .next t ∧ WritesRegister a v s t ∧
    ∀ i : Nat, i < 8 → v.getLsbD i = (s.readReg a).getLsbD ((i + steps.toNat) % 8)

/-- R104, 95_test_vectors.md S2: for 0 to 7 steps a ROR is undone by a ROR of `(8 - steps) mod 8`, and a ROR of 0
changes nothing. -/
def Obligations.RorIsUndoneByComplement : Prop :=
  (∀ (a : RegIndex) (k : Nat) (s : State), k < 8 →
    ∃ t u, exec (.ror a (BitVec.ofNat 4 k)) s = .next t ∧ exec (.ror a (BitVec.ofNat 4 ((8 - k) % 8))) t = .next u ∧
      WritesNothing s u) ∧
  ∀ (a : RegIndex) (s : State), ∃ t, exec (.ror a 0#4) s = .next t ∧ WritesNothing s t

/-! ### Compare, halt, no-ops -/

/-- R110: JEQ. Every Word of match 0xB000 under mask 0xF000 is a JEQ; whether the condition holds or not, nothing is
written and the status is CONTINUE (the name of the status is the spec's own, D6; log 5). -/
def Obligations.JeqIsInert : Prop :=
  (∀ w : Word, w &&& 0xF000#16 = 0xB000#16 → decode w = .jeq (w.extractLsb' 8 4) (w.extractLsb' 0 8)) ∧
  ∀ (a : RegIndex) (val : Byte) (s : State), ∃ t, exec (.jeq a val) s = .next t ∧ WritesNothing s t ∧
    t.status = some .CONTINUE

/-- R111: JGT, as JEQ. The discarded condition's operand order is the spec's own decision D5 (log 11). -/
def Obligations.JgtIsInert : Prop :=
  (∀ w : Word, w &&& 0xF000#16 = 0xD000#16 → decode w = .jgt (w.extractLsb' 8 4) (w.extractLsb' 0 8)) ∧
  ∀ (a : RegIndex) (val : Byte) (s : State), ∃ t, exec (.jgt a val) s = .next t ∧ WritesNothing s t ∧
    t.status = some .CONTINUE

/-- R112, R76: HALT. Every Word of match 0xC000 under mask 0xF000 is a HALT; it writes nothing and returns HALT. The
form of the status is the spec's own decision D6 (logs 5 and 12). -/
def Obligations.HaltOnlyReturnsStatus : Prop :=
  (∀ w : Word, w &&& 0xF000#16 = 0xC000#16 → decode w = .halt) ∧
  ∀ s : State, ∃ t, exec .halt s = .next t ∧ WritesNothing s t ∧ t.status = some .HALT

/-- R72, R73, R74: opcodes 0, 14 and 15. All 4096 Words of each are no-ops: nothing is written and the status is
CONTINUE (the name of the status is the spec's own, D6; log 5). -/
def Obligations.OpcodesWithoutHandlerDoNothing : Prop :=
  (∀ w : Word, opField w = 0x0#4 → decode w = .nop0) ∧
  (∀ w : Word, opField w = 0xE#4 → decode w = .nop14) ∧
  (∀ w : Word, opField w = 0xF#4 → decode w = .nop15) ∧
  ∀ s : State,
    (∃ t, exec .nop0 s = .next t ∧ WritesNothing s t ∧ t.status = some .CONTINUE) ∧
    (∃ t, exec .nop14 s = .next t ∧ WritesNothing s t ∧ t.status = some .CONTINUE) ∧
    (∃ t, exec .nop15 s = .next t ∧ WritesNothing s t ∧ t.status = some .CONTINUE)

/-! ### All instructions -/

/-- R13 (table), R14, R15, R35, R76: every instruction completes in every state; it changes at most the register and the
byte that the tables name for it, never `pc`, `ir` or what is presented next, and returns HALT exactly for HALT. The
stored address is the one the meaning computes. Memory is in its canonical form (log 24). -/
def Obligations.EveryInstructionKeepsItsFrame : Prop :=
  ∀ (i : Instr) (s : State), s.mem.wf = true → ∃ t, exec i s = .next t ∧
    (∀ r : RegIndex, i.writtenReg ≠ some r → t.readReg r = s.readReg r) ∧
    (∀ n : Nat, i.storedAddress ≠ some n → t.readMem n = s.readMem n) ∧
    KeepsRest s t ∧
    t.status = some (if i = .halt then .HALT else .CONTINUE)

/-- R6: the effect of `Execute(word)` depends only on the Word, the register file and main memory, and its only effects
are on them and on the returned status. -/
def Obligations.EffectDependsOnlyOnRegistersAndMemory : Prop :=
  ∀ (w : Word) (s s' : State), s.regs = s'.regs → s.mem = s'.mem →
    ∃ t t', execute w s = .next t ∧ execute w s' = .next t' ∧
      t.regs = t'.regs ∧ t.mem = t'.mem ∧ t.status = t'.status ∧
      KeepsRest s t ∧ KeepsRest s' t'

/-- R13 (table), R35, R75: what an instruction writes depends only on the registers and the byte it is listed as
reading, as they were before it. Memory is in its canonical form (log 24). -/
def Obligations.ResultDependsOnlyOnNamedOperands : Prop :=
  ∀ (i : Instr) (s s' : State), s.mem.wf = true → s'.mem.wf = true →
    (∀ r ∈ i.readRegs, s.readReg r = s'.readReg r) →
    (∀ n : Nat, i.loadedAddress = some n → s.readMem n = s'.readMem n) →
    ∃ t t', exec i s = .next t ∧ exec i s' = .next t' ∧ t.status = t'.status ∧
      (∀ r : RegIndex, i.writtenReg = some r → t.readReg r = t'.readReg r) ∧
      (∀ n : Nat, i.storedAddress = some n → t.readMem n = t'.readMem n)

/-- R76, R23: `Execute` returns HALT, and the `halt` port is 1, exactly for opcode 12. The port is the spec's rendering
(D6, D7; log 5). -/
def Obligations.HaltExactlyForOpcodeTwelve : Prop :=
  ∀ (w : Word) (s : State), ∃ t, execute w s = .next t ∧
    (t.haltPort = true ↔ opField w = 12#4) ∧
    (t.status = some .CONTINUE ↔ opField w ≠ 12#4)

/-! ### The Memory block -/

/-- R30, R31, R32: the contract of the Memory block, for every natural address, with `size` 256 and 16 alike. In range a
stored byte is read back and no other cell changes; at and past `size` a read gives 0x00 and a store changes nothing; a
store never changes the size. Main memory is in its canonical form (log 24). -/
def Obligations.MemoryBlockContract : Prop :=
  (∀ (m : Memory) (addr : Nat) (v : Byte), m.wf = true →
    (addr < 256 → (m.store addr v).read addr = v) ∧
    (∀ n : Nat, n ≠ addr → (m.store addr v).read n = m.read n) ∧
    (256 ≤ addr → m.read addr = 0x00#8 ∧ m.store addr v = m) ∧
    m.size = 256 ∧ (m.store addr v).size = m.size) ∧
  (∀ (x : RegFile) (addr : Nat) (v : Byte),
    (addr < 16 → RegFile.read (RegFile.store x addr v) addr = v) ∧
    (∀ n : Nat, n ≠ addr → RegFile.read (RegFile.store x addr v) n = RegFile.read x n) ∧
    (16 ≤ addr → RegFile.read x addr = 0x00#8 ∧ RegFile.store x addr v = x) ∧
    RegFile.size x = 16 ∧ RegFile.size (RegFile.store x addr v) = RegFile.size x)

/-- R13, R34: no instruction makes an out-of-range access. -/
def Obligations.InstructionsStayInRange : Prop :=
  ∀ i : Instr,
    (∀ n : Nat, i.loadedAddress = some n → n < Memory.size []) ∧
    (∀ n : Nat, i.storedAddress = some n → n < Memory.size []) ∧
    (∀ r : RegIndex, r ∈ i.readRegs ∨ i.writtenReg = some r → r.toNat < Config.regCount)

/-- R21 and log 24 (the model's own form): two canonical memories that read alike at all 256 addresses are the same
data, and so are two register files that read alike. -/
def Obligations.EqualReadsAreEqualData : Prop :=
  (∀ m m' : Memory, m.wf = true → m'.wf = true → (∀ n : Nat, n < 256 → m.read n = m'.read n) → m = m') ∧
  (∀ x x' : RegFile, (∀ n : Nat, n < 16 → RegFile.read x n = RegFile.read x' n) → x = x')

/-! ### The step, the ports, reset, runs -/

/-- R5, R70, R71, R23: when the oldest sample presents a Word, the step is `exec` of the instruction the Word decodes to,
with the sample taken; and `withFetchWord` presents its Word so that the next step runs exactly it. The queue of samples
is the model's own (log 4). -/
def Obligations.StepRunsPresentedWord : Prop :=
  (∀ (s : State) (p : PortSample) (rest : List PortSample), s.pending = p :: rest → p.rst = false → p.execValid = true →
    step s = exec (decode p.word) { s with pending := rest }) ∧
  ∀ (s : State) (w : Word), step (s.withFetchWord 16 w.toNat) = exec (decode w) s

/-- R141, R23: a step in which no Word is presented and `rst` is not asserted changes no state and returns no status, so
that the `halt` port is 0. That such a step exists is the model's choice (log 6). -/
def Obligations.StepWithoutWordDoesNothing : Prop :=
  ∀ s : State, (∀ p ∈ s.pending.head?, p.rst = false ∧ p.execValid = false) →
    ∃ t, step s = .next t ∧ (∀ r : RegIndex, t.readReg r = s.readReg r) ∧ (∀ n : Nat, t.readMem n = s.readMem n) ∧
      t.pc = s.pc ∧ t.ir = s.ir ∧ t.initRegs = s.initRegs ∧ t.initMem = s.initMem ∧
      t.pending = s.pending.tail ∧ t.status = none ∧ t.haltPort = false

/-- R23, R24, R140: a step with `rst` asserted leaves the core in the reset state of its construction; the `halt` port
is 1 exactly if a Word of opcode 12 came with it. The port is the spec's rendering (D7), `pc` and `ir` at reset are D2
(log 3), and the pair of `rst` and a Word is the model's choice (log 7). -/
def Obligations.StepWithRstRestoresReset : Prop :=
  ∀ (s : State) (p : PortSample) (rest : List PortSample), s.pending = p :: rest → p.rst = true →
    ∃ t, step s = .next t ∧ t.regs = s.initRegs ∧ t.mem = s.initMem ∧ t.pc = 0x00#8 ∧ t.ir = 0x0000#16 ∧
      t.initRegs = s.initRegs ∧ t.initMem = s.initMem ∧ t.pending = rest ∧
      (t.haltPort = true ↔ p.execValid = true ∧ opField p.word = 12#4)

/-- R24, R140, R141: construction puts `INIT_REG` in the registers, `INIT_MEM` in memory, 0 in `pc` and `ir` (D2, log 3),
nothing on the ports; `State.reset` is the construction from 0x00 everywhere (the model's choice, logs 1 and 2). -/
def Obligations.ConstructionSetsResetValues : Prop :=
  (∀ (x : RegFile) (m : Memory),
    (∀ r : RegIndex, (State.construct x m).readReg r = RegFile.read x r.toNat) ∧
    (∀ n : Nat, (State.construct x m).readMem n = m.read n) ∧
    (State.construct x m).pc = 0x00#8 ∧ (State.construct x m).ir = 0x0000#16 ∧
    (State.construct x m).pending = [] ∧ (State.construct x m).haltPort = false) ∧
  State.reset = State.construct (Vector.replicate 16 0x00#8) []

/-- R57, R77, R120: no step ends in a fault or a refusal, in any state, and no instruction does. -/
def Obligations.EveryStepIsSafe : Prop :=
  (∀ s : State, SafeStep s) ∧ ∀ (w : Word) (s : State), ∃ t, execute w s = .next t

/-- R14, R15, logs 3 and 24: a step keeps the invariant: canonical memory, and `pc` and `ir` at their reset values for
ever (their values are the spec's own decision D2). -/
def Obligations.StepKeepsInvariant : Prop :=
  ∀ s t : State, s.Inv → step s = .next t → t.Inv

/-- R24, logs 3 and 24: the invariant holds of every core constructed from a canonical `INIT_MEM`, `State.reset` among
them. -/
def Obligations.ConstructedCoreMeetsInvariant : Prop :=
  State.reset.Inv ∧ ∀ (x : RegFile) (m : Memory), m.wf = true → (State.construct x m).Inv

/-- R14, R15, R22, R24: in every reachable state of a constructed core, whatever was presented to it, the invariant
holds and the construction parameters are still those it was constructed from. Rests on D2 for `pc` and `ir` (log 3). -/
def Obligations.ReachableStatesMeetInvariant : Prop :=
  ∀ (x : RegFile) (m : Memory), m.wf = true → ∀ s : State, Reachable x m s →
    s.Inv ∧ s.initRegs = x ∧ s.initMem = m ∧ SafeStep s

/-- R45, R113: which Word comes next is decided outside: a step takes the oldest sample and no instruction, jump or store
changes those that follow. The queue is the model's own (log 4). -/
def Obligations.NothingChangesTheNextWord : Prop :=
  ∀ s : State, ∃ t, step s = .next t ∧ t.pending = s.pending.tail

/-- R41, R113, R76: presented Words take effect one at a time in the order presented; no jump skips one, and a HALT does
not stop the core (D6, log 12). The left side is the machine run by the host. -/
def Obligations.WordsExecuteInPresentedOrder : Prop :=
  ∀ (ws : List Word) (s : State), s.pending = [] →
    Host.Core.run core ws.length { s with pending := ws.map presents } = executeAll ws s

/-- R147: a run executes its Words in list order, each on the state the previous one left, up to and with the first
HALT, and no Word after it; where no Word is a HALT it executes them all. The definition is the spec's own decision D9
(log 15). -/
def Obligations.RunEndsAfterFirstHalt : Prop :=
  (∀ (ws rest : List Word) (w : Word) (s : State), (∀ v ∈ ws, opField v ≠ 12#4) → opField w = 12#4 →
    runProgram (ws ++ w :: rest) s = executeAll (ws ++ [w]) s) ∧
  (∀ (ws : List Word) (s : State), (∀ w ∈ ws, opField w ≠ 12#4) → runProgram ws s = executeAll ws s)

/-- R20, R23: the snapshot is the 16 registers and the 256 bytes of memory in order, and shows nothing else: it does not
depend on `pc`, `ir` or the status. -/
def Obligations.SnapshotShowsRegistersAndMemory : Prop :=
  (∀ s : State, s.snapshotRegs.length = 16 ∧ s.snapshotMem.length = 256 ∧
    (∀ r : RegIndex, s.snapshotRegs[r.toNat]? = some (s.readReg r) ∧ s.snapRegData r = s.readReg r) ∧
    (∀ a : Address, s.snapshotMem[a.toNat]? = some (s.readMem a.toNat) ∧ s.snapMemData a = s.readMem a.toNat)) ∧
  ∀ s s' : State, s.regs = s'.regs → s.mem = s'.mem →
    s.snapshotRegs = s'.snapshotRegs ∧ s.snapshotMem = s'.snapshotMem

/-- R59, R148: the Word of a valid token is presented after all that is pending; another token changes nothing
(log 20). -/
def Obligations.LoaderPresentsValidTokens : Prop :=
  ∀ (token : List Char) (s : State),
    (tokenWellFormed token = true → ∃ w, parseToken token = .ok w ∧
      (s.offerToken token).pending = s.pending ++ [⟨false, true, w⟩] ∧
      { s.offerToken token with pending := s.pending } = s) ∧
    (tokenWellFormed token = false → s.offerToken token = s)

/-! ### Decoder outputs and datapath -/

/-- R62: for every Word at most one of `reg_we` and `mem_we` is 1, a register is written exactly for the opcodes 1, 2 and
4 to 10, memory is read exactly for 1 and written exactly for 3, `halt` is 1 exactly for 12, and the write port is
addressed whenever it is enabled. The signals are the spec's own rendering (D7, log 16). -/
def Obligations.ControlEnablesAtMostOneWrite : Prop :=
  ∀ w : Word,
    ¬((controlOf w).regWe = true ∧ (controlOf w).memWe = true) ∧
    ((controlOf w).regWe = true ↔ (decode w).writtenReg.isSome = true) ∧
    (controlOf w).writeIndex = (decode w).writtenReg ∧
    ((controlOf w).memRe = true ↔ opField w = 1#4) ∧
    ((controlOf w).memWe = true ↔ opField w = 3#4) ∧
    ((controlOf w).halt = true ↔ opField w = 12#4)

/-- R62, R47, R70, R75: the datapath under the decoder's outputs computes what `Execute` computes, for every Word and
state. The structure is the spec's own rendering (D7, log 16). -/
def Obligations.DatapathComputesExecute : Prop :=
  ∀ (w : Word) (s : State), execute w s = .next (datapath w s)
end

