-- ==== Sys2Proof/Laws/Decode.lean ====
section
/-! SUPPORT. The fields of a Word put together from its four fields (R51). -/

namespace Sys2Proof

variable (op a b c : BitVec 4) (imm : BitVec 8)

theorem opField_four : opField (op ++ a ++ b ++ c) = op := by
  apply BitVec.eq_of_getLsbD_eq
  intro i hi
  simp only [opField, BitVec.getLsbD_extractLsb', BitVec.getLsbD_append]
  interval_cases i <;> simp

theorem aField_four : aField (op ++ a ++ b ++ c) = a := by
  apply BitVec.eq_of_getLsbD_eq
  intro i hi
  simp only [aField, BitVec.getLsbD_extractLsb', BitVec.getLsbD_append]
  interval_cases i <;> simp

theorem bField_four : bField (op ++ a ++ b ++ c) = b := by
  apply BitVec.eq_of_getLsbD_eq
  intro i hi
  simp only [bField, BitVec.getLsbD_extractLsb', BitVec.getLsbD_append]
  interval_cases i <;> simp

theorem cField_four : cField (op ++ a ++ b ++ c) = c := by
  apply BitVec.eq_of_getLsbD_eq
  intro i hi
  simp only [cField, BitVec.getLsbD_extractLsb', BitVec.getLsbD_append]
  interval_cases i <;> simp

theorem opField_imm : opField (op ++ a ++ imm) = op := by
  apply BitVec.eq_of_getLsbD_eq
  intro i hi
  simp only [opField, BitVec.getLsbD_extractLsb', BitVec.getLsbD_append]
  interval_cases i <;> simp

theorem aField_imm : aField (op ++ a ++ imm) = a := by
  apply BitVec.eq_of_getLsbD_eq
  intro i hi
  simp only [aField, BitVec.getLsbD_extractLsb', BitVec.getLsbD_append]
  interval_cases i <;> simp

theorem imm8Field_imm : imm8Field (op ++ a ++ imm) = imm := by
  apply BitVec.eq_of_getLsbD_eq
  intro i hi
  simp only [imm8Field, BitVec.getLsbD_extractLsb', BitVec.getLsbD_append]
  interval_cases i <;> simp

end Sys2Proof
end

