-- ==== Sys2Proof/Laws/Memory.lean ====
section
/-! SUPPORT. The laws of the Memory block: what a read gives after a store, and that a store keeps the canonical form.
Later proofs cite these and do not unfold `put`, `lookup` or `wfFrom`. -/

namespace Sys2Proof.Machine

/-! ### Main memory -/

theorem wfFrom_cons {low k : Nat} {v : Byte} {rest : Memory} :
    Memory.wfFrom low ((k, v) :: rest) = true ↔
      low ≤ k ∧ k < Config.memSize ∧ v ≠ Config.unlistedByte ∧ Memory.wfFrom (k + 1) rest = true := by
  simp [Memory.wfFrom, and_assoc]

theorem wfFrom_weaken {low low' : Nat} {m : Memory} (h : Memory.wfFrom low m = true) (hle : low' ≤ low) :
    Memory.wfFrom low' m = true := by
  cases m with
  | nil => rfl
  | cons c rest =>
    obtain ⟨k, v⟩ := c
    rw [wfFrom_cons] at h ⊢
    exact ⟨hle.trans h.1, h.2⟩

/-- Below the lower bound nothing is listed. -/
theorem lookup_below {low a : Nat} {m : Memory} (h : Memory.wfFrom low m = true) (ha : a < low) :
    Memory.lookup m a = Config.unlistedByte := by
  induction m generalizing low with
  | nil => rfl
  | cons c rest ih =>
    obtain ⟨k, v⟩ := c
    rw [wfFrom_cons] at h
    have hk : a ≠ k := by omega
    simp only [Memory.lookup, if_neg hk]
    exact ih h.2.2.2 (by omega)

/-- At and past the capacity nothing is listed. -/
theorem lookup_past_size {low a : Nat} {m : Memory} (h : Memory.wfFrom low m = true) (ha : Config.memSize ≤ a) :
    Memory.lookup m a = Config.unlistedByte := by
  induction m generalizing low with
  | nil => rfl
  | cons c rest ih =>
    obtain ⟨k, v⟩ := c
    rw [wfFrom_cons] at h
    have hk : a ≠ k := by omega
    simp only [Memory.lookup, if_neg hk]
    exact ih h.2.2.2

/-- What the list holds after one `put`. -/
theorem lookup_put {low : Nat} {m : Memory} (h : Memory.wfFrom low m = true) (a b : Nat) (v : Byte) :
    Memory.lookup (Memory.put m a v) b = if b = a then v else Memory.lookup m b := by
  induction m generalizing low with
  | nil => by_cases hv : v = Config.unlistedByte <;> simp [Memory.put, Memory.lookup, hv]
  | cons c rest ih =>
    obtain ⟨k, u⟩ := c
    rw [wfFrom_cons] at h
    unfold Memory.put
    by_cases hlt : a < k
    · have hbelow : Memory.lookup ((k, u) :: rest) a = Config.unlistedByte :=
        lookup_below (wfFrom_cons.mpr ⟨le_refl k, h.2⟩) hlt
      by_cases hv : v = Config.unlistedByte
      · by_cases hb : b = a
        · subst hb; simp [hlt, hv, hbelow]
        · simp [hlt, hv, hb]
      · simp [hlt, hv, Memory.lookup]
    · by_cases heq : a = k
      · subst heq
        have hrest : Memory.lookup rest a = Config.unlistedByte := lookup_below h.2.2.2 (Nat.lt_succ_self a)
        by_cases hv : v = Config.unlistedByte
        · by_cases hb : b = a
          · subst hb; simp [hv, hrest]
          · simp [hv, hb, Memory.lookup]
        · by_cases hb : b = a <;> simp [hv, hb, Memory.lookup]
      · by_cases hb : b = k
        · subst hb
          have hba : b ≠ a := fun e => heq e.symm
          simp [hlt, heq, hba, Memory.lookup]
        · simp [hlt, heq, hb, Memory.lookup, ih h.2.2.2]

theorem wfFrom_put {low a : Nat} {m : Memory} (h : Memory.wfFrom low m = true) (hlow : low ≤ a)
    (ha : a < Config.memSize) (v : Byte) : Memory.wfFrom low (Memory.put m a v) = true := by
  induction m generalizing low with
  | nil =>
    by_cases hv : v = Config.unlistedByte
    · simp [Memory.put, hv, Memory.wfFrom]
    · simp [Memory.put, hv, hlow, ha, Memory.wfFrom]
  | cons c rest ih =>
    obtain ⟨k, u⟩ := c
    have hall := h
    rw [wfFrom_cons] at h
    unfold Memory.put
    by_cases hlt : a < k
    · by_cases hv : v = Config.unlistedByte
      · simpa [hlt, hv] using hall
      · simp only [hlt, hv, if_true, if_false]
        exact wfFrom_cons.mpr ⟨hlow, ha, hv, wfFrom_cons.mpr ⟨hlt, h.2⟩⟩
    · by_cases heq : a = k
      · subst heq
        by_cases hv : v = Config.unlistedByte
        · simp only [hlt, hv, if_true, if_false]
          exact wfFrom_weaken h.2.2.2 (by omega)
        · simp only [hlt, hv, if_true, if_false]
          exact wfFrom_cons.mpr ⟨h.1, h.2.1, hv, h.2.2.2⟩
      · simp only [hlt, heq, if_false]
        exact wfFrom_cons.mpr ⟨h.1, h.2.1, h.2.2.1, ih h.2.2.2 (by omega)⟩

/-- R31 keeps the canonical form: the one operation that changes memory. -/
theorem store_keeps_wf {m : Memory} (h : m.wf = true) (a : Nat) (v : Byte) : (m.store a v).wf = true := by
  unfold Memory.store
  split
  · next ha => exact wfFrom_put h (Nat.zero_le a) ha v
  · exact h

/-- R30 after R31, in range. -/
theorem read_store {m : Memory} (h : m.wf = true) {a : Nat} (ha : a < Config.memSize) (b : Nat) (v : Byte) :
    (m.store a v).read b = if b = a then v else m.read b := by
  by_cases hb : b < Config.memSize
  · simp [Memory.store, Memory.read, ha, hb, lookup_put h]
  · have hne : b ≠ a := by omega
    simp [Memory.read, hb, hne]

/-- R31 out of range. -/
theorem store_past_size (m : Memory) {a : Nat} (ha : Config.memSize ≤ a) (v : Byte) : m.store a v = m := by
  simp [Memory.store, Nat.not_lt.mpr ha]

/-- R30 out of range. -/
theorem read_past_size (m : Memory) {a : Nat} (ha : Config.memSize ≤ a) : m.read a = Config.outOfRangeByte := by
  simp [Memory.read, Nat.not_lt.mpr ha]

/-! ### The register file -/

/-- R30 after R31 with `size = 16`, in range. -/
theorem regFile_read_store (x : RegFile) {a : Nat} (ha : a < Config.regCount) (b : Nat) (v : Byte) :
    RegFile.read (RegFile.store x a v) b = if b = a then v else RegFile.read x b := by
  unfold RegFile.read RegFile.store
  by_cases hb : b < Config.regCount
  · by_cases hab : b = a
    · subst hab; simp [ha]
    · have hba : a ≠ b := fun e => hab e.symm
      simp [ha, hb, hab, hba]
  · have hab : b ≠ a := by omega
    simp [hb, hab]

/-- R31 with `size = 16`, out of range. -/
theorem regFile_store_past_size (x : RegFile) {a : Nat} (ha : Config.regCount ≤ a) (v : Byte) :
    RegFile.store x a v = x := by
  simp [RegFile.store, Nat.not_lt.mpr ha]

/-- R30 with `size = 16`, out of range. -/
theorem regFile_read_past_size (x : RegFile) {a : Nat} (ha : Config.regCount ≤ a) :
    RegFile.read x a = Config.outOfRangeByte := by
  simp [RegFile.read, Nat.not_lt.mpr ha]

end Sys2Proof.Machine
end

