-- ==== Sys2Proof/Laws/State.lean ====
section
/-! SUPPORT. One lemma per field per update, and what a read gives after a write (R11, R30, R31). -/

namespace Sys2Proof.Machine

variable (s : State) (i j : RegIndex) (addr n : Nat) (v : Byte) (st : Status) (c : Bool)

/-! ### writeReg -/

@[simp] theorem writeReg_regs : (s.writeReg i v).regs = RegFile.store s.regs i.toNat v := rfl
@[simp] theorem writeReg_mem : (s.writeReg i v).mem = s.mem := rfl
@[simp] theorem writeReg_pc : (s.writeReg i v).pc = s.pc := rfl
@[simp] theorem writeReg_ir : (s.writeReg i v).ir = s.ir := rfl
@[simp] theorem writeReg_initRegs : (s.writeReg i v).initRegs = s.initRegs := rfl
@[simp] theorem writeReg_initMem : (s.writeReg i v).initMem = s.initMem := rfl
@[simp] theorem writeReg_pending : (s.writeReg i v).pending = s.pending := rfl
@[simp] theorem writeReg_status : (s.writeReg i v).status = s.status := rfl
@[simp] theorem writeReg_readMem : (s.writeReg i v).readMem n = s.readMem n := rfl

/-! ### writeMem -/

@[simp] theorem writeMem_regs : (s.writeMem addr v).regs = s.regs := rfl
@[simp] theorem writeMem_mem : (s.writeMem addr v).mem = s.mem.store addr v := rfl
@[simp] theorem writeMem_pc : (s.writeMem addr v).pc = s.pc := rfl
@[simp] theorem writeMem_ir : (s.writeMem addr v).ir = s.ir := rfl
@[simp] theorem writeMem_initRegs : (s.writeMem addr v).initRegs = s.initRegs := rfl
@[simp] theorem writeMem_initMem : (s.writeMem addr v).initMem = s.initMem := rfl
@[simp] theorem writeMem_pending : (s.writeMem addr v).pending = s.pending := rfl
@[simp] theorem writeMem_status : (s.writeMem addr v).status = s.status := rfl
@[simp] theorem writeMem_readReg : (s.writeMem addr v).readReg i = s.readReg i := rfl

/-! ### returning -/

@[simp] theorem returning_regs : (s.returning st).regs = s.regs := rfl
@[simp] theorem returning_mem : (s.returning st).mem = s.mem := rfl
@[simp] theorem returning_pc : (s.returning st).pc = s.pc := rfl
@[simp] theorem returning_ir : (s.returning st).ir = s.ir := rfl
@[simp] theorem returning_initRegs : (s.returning st).initRegs = s.initRegs := rfl
@[simp] theorem returning_initMem : (s.returning st).initMem = s.initMem := rfl
@[simp] theorem returning_pending : (s.returning st).pending = s.pending := rfl
@[simp] theorem returning_status : (s.returning st).status = some st := rfl
@[simp] theorem returning_readReg : (s.returning st).readReg i = s.readReg i := rfl
@[simp] theorem returning_readMem : (s.returning st).readMem n = s.readMem n := rfl

/-! ### discard, idle, resetCore -/

@[simp] theorem discard_eq : s.discard c = s := rfl

@[simp] theorem idle_regs : (idle s).regs = s.regs := rfl
@[simp] theorem idle_mem : (idle s).mem = s.mem := rfl
@[simp] theorem idle_pc : (idle s).pc = s.pc := rfl
@[simp] theorem idle_ir : (idle s).ir = s.ir := rfl
@[simp] theorem idle_initRegs : (idle s).initRegs = s.initRegs := rfl
@[simp] theorem idle_initMem : (idle s).initMem = s.initMem := rfl
@[simp] theorem idle_pending : (idle s).pending = s.pending := rfl
@[simp] theorem idle_status : (idle s).status = none := rfl

@[simp] theorem resetCore_regs : (resetCore s).regs = s.initRegs := rfl
@[simp] theorem resetCore_mem : (resetCore s).mem = s.initMem := rfl
@[simp] theorem resetCore_pc : (resetCore s).pc = Config.pcReset := rfl
@[simp] theorem resetCore_ir : (resetCore s).ir = Config.irReset := rfl
@[simp] theorem resetCore_initRegs : (resetCore s).initRegs = s.initRegs := rfl
@[simp] theorem resetCore_initMem : (resetCore s).initMem = s.initMem := rfl
@[simp] theorem resetCore_pending : (resetCore s).pending = s.pending := rfl
@[simp] theorem resetCore_status : (resetCore s).status = s.status := rfl

/-! ### presentFirst, construct -/

variable (w : Word) (x : RegFile) (m : Memory)

@[simp] theorem presentFirst_regs : (s.presentFirst w).regs = s.regs := rfl
@[simp] theorem presentFirst_mem : (s.presentFirst w).mem = s.mem := rfl
@[simp] theorem presentFirst_pc : (s.presentFirst w).pc = s.pc := rfl
@[simp] theorem presentFirst_ir : (s.presentFirst w).ir = s.ir := rfl
@[simp] theorem presentFirst_initRegs : (s.presentFirst w).initRegs = s.initRegs := rfl
@[simp] theorem presentFirst_initMem : (s.presentFirst w).initMem = s.initMem := rfl
@[simp] theorem presentFirst_pending : (s.presentFirst w).pending = presents w :: s.pending := rfl
@[simp] theorem presentFirst_status : (s.presentFirst w).status = s.status := rfl

@[simp] theorem construct_regs : (State.construct x m).regs = x := rfl
@[simp] theorem construct_mem : (State.construct x m).mem = m := rfl
@[simp] theorem construct_pc : (State.construct x m).pc = Config.pcReset := rfl
@[simp] theorem construct_ir : (State.construct x m).ir = Config.irReset := rfl
@[simp] theorem construct_initRegs : (State.construct x m).initRegs = x := rfl
@[simp] theorem construct_initMem : (State.construct x m).initMem = m := rfl
@[simp] theorem construct_pending : (State.construct x m).pending = [] := rfl
@[simp] theorem construct_status : (State.construct x m).status = none := rfl

/-! ### Reads after writes -/

theorem regIndex_inBounds : i.toNat < Config.regCount := i.isLt

theorem address_inBounds (a : Address) : effectiveAddress a < Config.memSize := a.isLt

theorem readReg_writeReg : (s.writeReg i v).readReg j = if j = i then v else s.readReg j := by
  simp only [State.readReg, writeReg_regs, regFile_read_store _ (regIndex_inBounds i), BitVec.toNat_inj]

theorem readMem_writeMem {s : State} {addr : Nat} (h : s.mem.wf = true) (ha : addr < Config.memSize) :
    (s.writeMem addr v).readMem n = if n = addr then v else s.readMem n := by
  simp only [State.readMem, writeMem_mem, read_store h ha]

end Sys2Proof.Machine
end

