-- ==== Sys2Proof/Laws/Frame.lean ====
section
/-! SUPPORT. What each shared state operation can do, once, in the terms of the frame predicates; and the three shapes
an outcome of `exec` has. -/

namespace Sys2Proof.Machine

theorem KeepsRest.refl (s : State) : KeepsRest s s := ⟨rfl, rfl, rfl, rfl, rfl⟩

theorem writeReg_writesRegister (s : State) (a : RegIndex) (v : Byte) (st : Status) :
    WritesRegister a v s ((s.writeReg a v).returning st) where
  written := by simp [readReg_writeReg]
  otherRegs r hr := by simp [readReg_writeReg, hr]
  memory _ := rfl
  rest := ⟨rfl, rfl, rfl, rfl, rfl⟩

theorem writeMem_writesByte {s : State} (h : s.mem.wf = true) {addr : Nat} (ha : addr < Config.memSize) (v : Byte)
    (st : Status) : WritesByte addr v s ((s.writeMem addr v).returning st) where
  written := by simp [readMem_writeMem addr v h ha]
  otherBytes n hn := by simp [readMem_writeMem n v h ha, hn]
  registers _ := rfl
  rest := ⟨rfl, rfl, rfl, rfl, rfl⟩

theorem returning_writesNothing (s : State) (st : Status) : WritesNothing s (s.returning st) where
  registers _ := rfl
  memory _ := rfl
  rest := ⟨rfl, rfl, rfl, rfl, rfl⟩

/-- Every instruction ends in one of three ways: a register written, a byte stored, or nothing but the status. -/
theorem exec_shape (i : Instr) (s : State) :
    (∃ a v, i.writtenReg = some a ∧ i.storedAddress = none ∧
      exec i s = .next ((s.writeReg a v).returning .CONTINUE)) ∨
    (∃ a addr, i = .stm a addr ∧
      exec i s = .next ((s.writeMem (effectiveAddress addr) (s.readReg a)).returning .CONTINUE)) ∨
    (i.writtenReg = none ∧ i.storedAddress = none ∧
      exec i s = .next (s.returning (if i = .halt then .HALT else .CONTINUE))) := by
  cases i with
  | ldm a addr => exact .inl ⟨a, _, rfl, rfl, rfl⟩
  | ldi a imm => exact .inl ⟨a, _, rfl, rfl, rfl⟩
  | mov a c => exact .inl ⟨a, _, rfl, rfl, rfl⟩
  | adds a b c => exact .inl ⟨a, _, rfl, rfl, rfl⟩
  | addq a b c => exact .inl ⟨a, _, rfl, rfl, rfl⟩
  | or a b c => exact .inl ⟨a, _, rfl, rfl, rfl⟩
  | and a b c => exact .inl ⟨a, _, rfl, rfl, rfl⟩
  | xor a b c => exact .inl ⟨a, _, rfl, rfl, rfl⟩
  | ror a k => exact .inl ⟨a, _, rfl, rfl, rfl⟩
  | stm a addr => exact .inr (.inl ⟨a, addr, rfl, rfl⟩)
  | nop0 => exact .inr (.inr ⟨rfl, rfl, rfl⟩)
  | jeq a v => exact .inr (.inr ⟨rfl, rfl, rfl⟩)
  | halt => exact .inr (.inr ⟨rfl, rfl, rfl⟩)
  | jgt a v => exact .inr (.inr ⟨rfl, rfl, rfl⟩)
  | nop14 => exact .inr (.inr ⟨rfl, rfl, rfl⟩)
  | nop15 => exact .inr (.inr ⟨rfl, rfl, rfl⟩)

/-- R76: every instruction answers a next state, whose `halt` port is 1 exactly for HALT. -/
theorem exec_haltPort (i : Instr) (s : State) : ∃ t, exec i s = .next t ∧ (t.haltPort = true ↔ i = .halt) := by
  cases i <;> exact ⟨_, rfl, by simp [State.haltPort]⟩

/-- R41: the first Word of a list, then the others on the state it left. -/
theorem executeAll_cons {w : Word} {s t : State} (h : execute w s = .next t) (ws : List Word) :
    executeAll (w :: ws) s = executeAll ws t := by
  simp only [executeAll, h]

/-- R147: a run ends with a Word that answers HALT. -/
theorem runProgram_cons_halt {w : Word} {s t : State} (h : execute w s = .next t) (hh : t.haltPort = true)
    (ws : List Word) : runProgram (w :: ws) s = .next t := by
  simp only [runProgram, h, hh, if_true]

/-- R147: a run goes on after any other Word. -/
theorem runProgram_cons_continue {w : Word} {s t : State} (h : execute w s = .next t) (hh : t.haltPort ≠ true)
    (ws : List Word) : runProgram (w :: ws) s = runProgram ws t := by
  simp only [runProgram, h, if_neg hh]

/-- One step either idles or takes the oldest sample. -/
theorem clockStep_shape (s : State) :
    (s.pending = [] ∧ clockStep s = .next (idle s)) ∨
    ∃ p rest, s.pending = p :: rest ∧
      clockStep s = applyRst p.rst (applyWord p { s with pending := rest }) := by
  unfold clockStep
  cases h : s.pending with
  | nil => exact .inl ⟨rfl, rfl⟩
  | cons p rest => exact .inr ⟨p, rest, rfl, rfl⟩

end Sys2Proof.Machine
end

