-- ==== Sys2Proof/Laws/PerInstr.lean ====
section
/-! SUPPORT. Statements about every instruction as syntax, one lemma per constructor. -/

namespace Sys2Proof.Laws.EncodesOpcode

/-- R54, R60: bits 15:12 of an instruction's canonical Word are its opcode. -/
def Statement (i : Instr) : Prop := opField (encode i) = i.opcode

theorem nop0 : Statement .nop0 := rfl
theorem ldm (a : RegIndex) (addr : Address) : Statement (.ldm a addr) := opField_imm _ a addr
theorem ldi (a : RegIndex) (imm : Byte) : Statement (.ldi a imm) := opField_imm _ a imm
theorem stm (a : RegIndex) (addr : Address) : Statement (.stm a addr) := opField_imm _ a addr
theorem mov (a c : RegIndex) : Statement (.mov a c) := opField_four _ a _ c
theorem adds (a b c : RegIndex) : Statement (.adds a b c) := opField_four _ a b c
theorem addq (a b c : RegIndex) : Statement (.addq a b c) := opField_four _ a b c
theorem or (a b c : RegIndex) : Statement (.or a b c) := opField_four _ a b c
theorem and (a b c : RegIndex) : Statement (.and a b c) := opField_four _ a b c
theorem xor (a b c : RegIndex) : Statement (.xor a b c) := opField_four _ a b c
theorem ror (a : RegIndex) (steps : Steps) : Statement (.ror a steps) := opField_four _ a _ steps
theorem jeq (a : RegIndex) (val : Byte) : Statement (.jeq a val) := opField_imm _ a val
theorem halt : Statement .halt := rfl
theorem jgt (a : RegIndex) (val : Byte) : Statement (.jgt a val) := opField_imm _ a val
theorem nop14 : Statement .nop14 := rfl
theorem nop15 : Statement .nop15 := rfl

end Sys2Proof.Laws.EncodesOpcode
end

