-- ==== Sys2Proof/Tests/Slice0.lean ====
section
/-! SUPPORT. The model's own tests and the witnesses of the statements' hypotheses. Expected values come from spec
95_test_vectors.md (the vector's id stands at the test) or from the encodings of R60, never from the model. -/

namespace Sys2Proof.Tests

open Sys2Proof.Machine

/-! ### Helpers -/

/-- The state in an outcome. -/
def stateOf : Host.Outcome State Fault Refusal → Option State
  | .next t => some t
  | .fault _ => none
  | .refused _ => none

/-- Reset with the registers `i` holding `v`. -/
def withRegs (rs : List (RegIndex × Byte)) : State := rs.foldl (fun s r => s.writeReg r.1 r.2) State.reset

/-- The state after one presented Word. -/
def after (w : Word) (s : State) : Option State := stateOf (step (s.presentFirst w))

/-- Register `i` after one presented Word. -/
def regAfter (i : RegIndex) (w : Word) (s : State) : Option Byte := (after w s).map (fun t => t.readReg i)

/-- Byte `n` after one presented Word. -/
def byteAfter (n : Nat) (w : Word) (s : State) : Option Byte := (after w s).map (fun t => t.readMem n)

/-- Whether a presented Word changes nothing but the status, and the `halt` port after it. -/
def inert (w : Word) (s : State) : Option (Bool × Bool) :=
  (after w s).map (fun t => (decide ({ t with status := s.status } = s), t.haltPort))

/-! ### WellFormed smoke: text that the check refuses (R59) -/

theorem test_token_three_digits_illFormed : tokenWellFormed ['2', 'A', '0'] = false := by decide
theorem test_token_five_digits_illFormed : tokenWellFormed ['2', 'A', '0', '5', '0'] = false := by decide
theorem test_token_other_letter_illFormed : tokenWellFormed ['2', 'G', '0', '5'] = false := by decide
theorem test_token_wellFormed : tokenWellFormed ['2', 'a', '0', '5'] = true := by decide
theorem test_every_instr_wellFormed (i : Instr) : i.wellFormed = true := by cases i <;> rfl

/-! ### Tokens (spec 95 section 2.1) -/

theorem test_token_case : parseToken ['2', 'a', '0', '5'] = .ok 0x2A05#16 ∧ parseToken ['2', 'A', '0', '5'] = .ok 0x2A05#16 :=
  ⟨rfl, rfl⟩
theorem test_token_nop : parseToken ['0', '0', 'f', 'f'] = .ok 0x00FF#16 := rfl
theorem test_token_rejected : parseToken ['2', 'A', '0', 'x'] = .error .notHexadecimal ∧
    parseToken ['2', 'A'] = .error .notFourCharacters := ⟨rfl, rfl⟩
theorem test_assembly : (Instr.ldm 10#4 0x0A#8).assembly =
    ['L', 'D', 'M', ' ', 'x', '1', '0', ',', ' ', '[', '0', 'x', '0', 'A', ']'] := by decide

/-! ### Decoding: one word of each instruction, bit by bit from the encodings of R54 and R60 -/

theorem test_decode_nop0 : decode 0b0000111111111111#16 = .nop0 := by decide
theorem test_decode_ldm : decode 0b0001101000001010#16 = .ldm 10#4 0x0A#8 := by decide
theorem test_decode_ldi : decode 0b0010101000000101#16 = .ldi 10#4 0x05#8 := by decide
theorem test_decode_stm : decode 0b0011001101000000#16 = .stm 3#4 0x40#8 := by decide
theorem test_decode_mov : decode 0b0100001011110001#16 = .mov 2#4 1#4 := by decide
theorem test_decode_adds : decode 0b0101001100010010#16 = .adds 3#4 1#4 2#4 := by decide
theorem test_decode_addq : decode 0b0110011001000101#16 = .addq 6#4 4#4 5#4 := by decide
theorem test_decode_or : decode 0b0111001100010010#16 = .or 3#4 1#4 2#4 := by decide
theorem test_decode_and : decode 0b1000010000010010#16 = .and 4#4 1#4 2#4 := by decide
theorem test_decode_xor : decode 0b1001010100010010#16 = .xor 5#4 1#4 2#4 := by decide
theorem test_decode_ror : decode 0b1010101111001101#16 = .ror 11#4 13#4 := by decide
theorem test_decode_jeq : decode 0b1011000100000111#16 = .jeq 1#4 0x07#8 := by decide
theorem test_decode_halt : decode 0b1100101010111100#16 = .halt := by decide
theorem test_decode_jgt : decode 0b1101000111111111#16 = .jgt 1#4 0xFF#8 := by decide
theorem test_decode_nop14 : decode 0b1110000100100011#16 = .nop14 := by decide
theorem test_decode_nop15 : decode 0b1111111111111111#16 = .nop15 := by decide
theorem test_decodeTableWord : decodeTableWord 16 0x5312 = some (.adds 3#4 1#4 2#4) := by decide
theorem test_encode_mov : encode (.mov 2#4 1#4) = 0x4201#16 := by decide

/-! ### One step of each instruction -/

/-- S6: a construction with `INIT_MEM(0x0A) = 0x42`. -/
theorem test_ldm : regAfter 10#4 0x1A0A#16 (State.construct Config.initRegs [(0x0A, 0x42#8)]) = some 0x42#8 := by decide
/-- T-M2. -/
theorem test_ldm_last : regAfter 15#4 0x1FFF#16 (State.construct Config.initRegs [(0xFF, 0x7E#8)]) = some 0x7E#8 := by decide
/-- S5. -/
theorem test_ldi : regAfter 10#4 0x2A05#16 State.reset = some 0x05#8 := by decide
/-- T-M7. -/
theorem test_stm : byteAfter 0x40 0x3340#16 (withRegs [(3#4, 0x08#8)]) = some 0x08#8 := by decide
/-- T-M9: no wrap to the first cell. -/
theorem test_stm_last : byteAfter 0xFF 0x3FFF#16 (withRegs [(15#4, 0xC3#8)]) = some 0xC3#8 ∧
    byteAfter 0x00 0x3FFF#16 (withRegs [(15#4, 0xC3#8)]) = some 0x00#8 := by decide
/-- T-M11: ignored bits set. -/
theorem test_mov_ignored_bits : regAfter 2#4 0x42F1#16 (withRegs [(1#4, 0x07#8)]) = some 0x07#8 := by decide
/-- S3. -/
theorem test_adds_overflow : regAfter 3#4 0x5312#16 (withRegs [(1#4, 0x7F#8), (2#4, 0x01#8)]) = some 0x80#8 := by decide
/-- T-A12: the destination is both sources. -/
theorem test_adds_same_register : regAfter 1#4 0x5111#16 (withRegs [(1#4, 0x81#8)]) = some 0x02#8 := by decide
/-- S4. -/
theorem test_addq : regAfter 6#4 0x6645#16 (withRegs [(4#4, 0x10#8), (5#4, 0x10#8)]) = some 0x20#8 := by decide
/-- T-Q8 (D4). -/
theorem test_addq_wraps : regAfter 3#4 0x6312#16 (withRegs [(1#4, 0xF0#8), (2#4, 0x20#8)]) = some 0x10#8 := by decide
/-- T-B1. -/
theorem test_or : regAfter 3#4 0x7312#16 (withRegs [(1#4, 0xF0#8), (2#4, 0x3C#8)]) = some 0xFC#8 := by decide
/-- T-B1. -/
theorem test_and : regAfter 4#4 0x8412#16 (withRegs [(1#4, 0xF0#8), (2#4, 0x3C#8)]) = some 0x30#8 := by decide
/-- T-B1. -/
theorem test_xor : regAfter 5#4 0x9512#16 (withRegs [(1#4, 0xF0#8), (2#4, 0x3C#8)]) = some 0xCC#8 := by decide
/-- T-R3, with ignored bits set. -/
theorem test_ror : regAfter 5#4 0xA5F3#16 (withRegs [(5#4, 0xCC#8)]) = some 0x99#8 := by decide
/-- T-R13 (D3). -/
theorem test_ror_nine : regAfter 5#4 0xA509#16 (withRegs [(5#4, 0xA5#8)]) = some 0xD2#8 := by decide
/-- T-C1, T-C2. -/
theorem test_jeq : inert 0xB107#16 (withRegs [(1#4, 0x07#8)]) = some (true, false) ∧
    inert 0xB108#16 (withRegs [(1#4, 0x07#8)]) = some (true, false) := by decide
/-- T-C6, T-C9. -/
theorem test_jgt : inert 0xD17F#16 (withRegs [(1#4, 0x80#8)]) = some (true, false) ∧
    inert 0xD1FF#16 (withRegs [(1#4, 0x00#8)]) = some (true, false) := by decide
/-- T-C6, T-C7, T-C9: the discarded condition. -/
theorem test_cmpGtSigned : cmpGtSigned 0x80#8 0x7F#8 = false ∧ cmpGtSigned 0x7F#8 0x80#8 = true ∧
    cmpGtSigned 0x00#8 0xFF#8 = true := by decide
/-- T-C12. -/
theorem test_halt : inert 0xCABC#16 (withRegs [(1#4, 0x07#8)]) = some (true, true) := by decide
/-- T-D8: a Word after a HALT. -/
theorem test_after_halt : regAfter 1#4 0x2109#16 (State.reset.returning .HALT) = some 0x09#8 := by decide
/-- T-D2. -/
theorem test_nop0 : inert 0x0FFF#16 (withRegs [(1#4, 0x07#8)]) = some (true, false) := by decide
/-- S9. -/
theorem test_nop14 : inert 0xE123#16 (withRegs [(1#4, 0x07#8)]) = some (true, false) := by decide
/-- T-D6. -/
theorem test_nop15 : inert 0xFFFF#16 (withRegs [(1#4, 0x07#8)]) = some (true, false) := by decide

/-! ### The Memory block (spec 95 section 2.9) and value functions -/

/-- T-X1 to T-X3. -/
theorem test_memory_block : Memory.read [(255, 0x7E#8)] 255 = 0x7E#8 ∧ Memory.read [(255, 0x7E#8)] 256 = 0x00#8 ∧
    Memory.store [(255, 0x7E#8)] 256 0x5A#8 = [(255, 0x7E#8)] := by decide
/-- T-X5 to T-X7. -/
theorem test_register_block : RegFile.read (RegFile.store Config.initRegs 15 0x21#8) 15 = 0x21#8 ∧
    RegFile.read (Vector.replicate 16 0x21#8) 16 = 0x00#8 ∧
    RegFile.store Config.initRegs 16 0x5A#8 = Config.initRegs := by decide
/-- A store of what an unlisted address reads as removes the pair. -/
theorem test_store_canonical : Memory.store [(3, 0x01#8), (5, 0x02#8)] 3 0x00#8 = [(5, 0x02#8)] := by decide
/-- R3's examples. -/
theorem test_wrap8 : wrap8 256 = 0x00#8 ∧ wrap8 (-1) = 0xFF#8 ∧ wrap8 (-129) = 0x7F#8 ∧ wrap8 510 = 0xFE#8 := by decide
/-- R4's examples. -/
theorem test_sext8 : sext8 0x7F#8 = 127 ∧ sext8 0x80#8 = -128 ∧ sext8 0xFF#8 = -1 := by decide

/-! ### The boundary -/

/-- Nothing presented: nothing happens (R141). -/
theorem test_idle : stateOf (step State.reset) = some State.reset := by decide
/-- `rst` with a HALT Word: the reset state, `halt` 1 (R23). -/
theorem test_rst : (stateOf (step { withRegs [(1#4, 0x07#8)] with pending := [⟨true, true, 0xC000#16⟩] })).map
    (fun t => (t.readReg 1#4, t.haltPort)) = some (0x00#8, true) := by decide
/-- The host's fetch word (R45). -/
theorem test_withFetchWord : stateOf (step (State.reset.withFetchWord 16 0x2A05)) =
    stateOf (exec (.ldi 10#4 0x05#8) State.reset) := by decide
theorem test_offerToken : (State.reset.offerToken ['c', '0', '0', '0']).pending = [⟨false, true, 0xC000#16⟩] := by decide

/-! ### Witnesses: for each statement with hypotheses, values that meet them all -/

/-- Canonical memory, with a byte at each end. -/
def exampleMemory : Memory := [(0x00, 0x11#8), (0xFF, 0x22#8)]

/-- A state with that memory. -/
def exampleState : State := State.construct (Vector.replicate 16 0x05#8) exampleMemory

theorem witness_DecodeOfEncodeIsIdentity : (Instr.stm 3#4 0xFF#8).wellFormed = true := by decide
theorem witness_IgnoredBitsHaveNoEffect :
    (0x42F1#16 &&& 0xFF0F#16 = 0x4201#16 &&& 0xFF0F#16 ∧ opField 0x42F1#16 = 4#4) ∧
    (0xA5F3#16 &&& 0xFF0F#16 = 0xA503#16 &&& 0xFF0F#16 ∧ opField 0xA5F3#16 = 10#4) ∧
    (0x0FFF#16 &&& 0xF000#16 = 0x0000#16 &&& 0xF000#16 ∧ opField 0x0FFF#16 = 0#4) ∧
    (0xCABC#16 &&& 0xF000#16 = 0xC000#16 &&& 0xF000#16 ∧ opField 0xCABC#16 = 12#4) ∧
    (0xE123#16 &&& 0xF000#16 = 0xE000#16 &&& 0xF000#16 ∧ opField 0xE123#16 = 14#4) ∧
    (0xFFFF#16 &&& 0xF000#16 = 0xF000#16 &&& 0xF000#16 ∧ opField 0xFFFF#16 = 15#4) := by decide
theorem witness_TokenIsFourHexDigits :
    (hexDigit? '0' = some 0#4 ∧ hexDigit? '9' = some 9#4 ∧ hexDigit? 'a' = some 10#4 ∧ hexDigit? 'F' = some 15#4) ∧
    tokenWellFormed ['0', '0', '0'] = false := by decide
theorem witness_FixedPointAddIsExactBelowSixteen : q44 0x80#8 + q44 0x7F#8 < 16 := by norm_num [q44]
theorem witness_LdmLoadsByte : 0x1FFF#16 &&& 0xF000#16 = 0x1000#16 := by decide
theorem witness_LdiLoadsImmediate : 0x2FFF#16 &&& 0xF000#16 = 0x2000#16 := by decide
theorem witness_StmStoresByte : 0x3FFF#16 &&& 0xF000#16 = 0x3000#16 ∧ exampleState.mem.wf = true := by decide
theorem witness_MovCopiesRegister : 0x4FFF#16 &&& 0xF000#16 = 0x4000#16 := by decide
theorem witness_LoadAfterStore : exampleState.mem.wf = true := by decide
theorem witness_AddsAddsModulo256 : 0x5FFF#16 &&& 0xF000#16 = 0x5000#16 := by decide
theorem witness_AddqAddsModulo256 : 0x6FFF#16 &&& 0xF000#16 = 0x6000#16 := by decide
theorem witness_BitwiseOperations : 0x7FFF#16 &&& 0xF000#16 = 0x7000#16 ∧ 0x8FFF#16 &&& 0xF000#16 = 0x8000#16 ∧
    0x9FFF#16 &&& 0xF000#16 = 0x9000#16 := by decide
theorem witness_RorRotatesTowardBitZero : 0xAFFF#16 &&& 0xF000#16 = 0xA000#16 ∧ 7 < 8 := by decide
theorem witness_RorIsUndoneByComplement : (0 : Nat) < 8 ∧ (7 : Nat) < 8 := by decide
theorem witness_JeqIsInert : 0xBFFF#16 &&& 0xF000#16 = 0xB000#16 := by decide
theorem witness_JgtIsInert : 0xDFFF#16 &&& 0xF000#16 = 0xD000#16 := by decide
theorem witness_HaltOnlyReturnsStatus : 0xCFFF#16 &&& 0xF000#16 = 0xC000#16 := by decide
theorem witness_OpcodesWithoutHandlerDoNothing :
    opField 0x0FFF#16 = 0x0#4 ∧ opField 0xEFFF#16 = 0xE#4 ∧ opField 0xFFFF#16 = 0xF#4 := by decide
theorem witness_EveryInstructionKeepsItsFrame : exampleState.mem.wf = true ∧
    (Instr.adds 1#4 2#4 3#4).writtenReg ≠ some 0#4 ∧ (Instr.stm 1#4 0xFF#8).storedAddress ≠ some 0 := by decide
theorem witness_EffectDependsOnlyOnRegistersAndMemory :
    exampleState.regs = ({ exampleState with pc := 0xFF#8, status := some .HALT } : State).regs ∧
    exampleState.mem = ({ exampleState with pc := 0xFF#8, status := some .HALT } : State).mem := by decide
/-- Two states that differ in a register the instruction does not read and in a byte it does not load. -/
theorem witness_ResultDependsOnlyOnNamedOperands :
    let s := exampleState
    let s' := (exampleState.writeReg 9#4 0x77#8).writeMem 0x33 0x44#8
    s.mem.wf = true ∧ s'.mem.wf = true ∧ (∀ r ∈ (Instr.adds 1#4 2#4 3#4).readRegs, s.readReg r = s'.readReg r) ∧
    (Instr.ldm 1#4 0xFF#8).loadedAddress = some 0xFF ∧ s.readMem 0xFF = s'.readMem 0xFF ∧
    (Instr.adds 1#4 2#4 3#4).writtenReg = some 1#4 ∧ (Instr.stm 1#4 0xFF#8).storedAddress = some 0xFF ∧ s ≠ s' := by
  decide
theorem witness_MemoryBlockContract : exampleMemory.wf = true ∧ 0 < 256 ∧ 255 < 256 ∧ 256 ≤ 256 ∧ 0 < 16 ∧ 15 < 16 ∧
    16 ≤ 16 ∧ 254 ≠ 255 := by decide
theorem witness_InstructionsStayInRange : (Instr.ldm 15#4 0xFF#8).loadedAddress = some 255 ∧
    (Instr.stm 15#4 0xFF#8).storedAddress = some 255 ∧ 15#4 ∈ (Instr.stm 15#4 0xFF#8).readRegs ∧
    (Instr.ldm 15#4 0xFF#8).writtenReg = some 15#4 := by decide
theorem witness_EqualReadsAreEqualData : exampleMemory.wf = true ∧
    (∀ n : Nat, n < 256 → exampleMemory.read n = exampleMemory.read n) ∧
    (∀ n : Nat, n < 16 → RegFile.read exampleState.regs n = RegFile.read exampleState.regs n) :=
  ⟨by decide, fun _ _ => rfl, fun _ _ => rfl⟩
theorem witness_StepRunsPresentedWord : (exampleState.presentFirst 0x5312#16).pending = [⟨false, true, 0x5312#16⟩] ∧
    (presents 0x5312#16).rst = false ∧ (presents 0x5312#16).execValid = true := by decide
theorem witness_StepWithoutWordDoesNothing : (∀ p ∈ exampleState.pending.head?, p.rst = false ∧ p.execValid = false) ∧
    (∀ p ∈ ([⟨false, false, 0xC000#16⟩] : List PortSample).head?, p.rst = false ∧ p.execValid = false) := by decide
theorem witness_StepWithRstRestoresReset :
    ({ exampleState with pending := [⟨true, true, 0xC000#16⟩] } : State).pending = ⟨true, true, 0xC000#16⟩ :: [] ∧
    (⟨true, true, 0xC000#16⟩ : PortSample).rst = true ∧ (⟨true, false, 0xC000#16⟩ : PortSample).rst = true := by decide
theorem witness_StepKeepsInvariant : exampleState.Inv ∧ step exampleState = .next (idle exampleState) :=
  ⟨⟨by decide, by decide, rfl, rfl⟩, rfl⟩
theorem witness_ConstructedCoreMeetsInvariant : exampleMemory.wf = true := by decide
theorem witness_ReachableStatesMeetInvariant : exampleMemory.wf = true ∧
    Reachable (Vector.replicate 16 0x05#8) exampleMemory (idle exampleState) :=
  ⟨by decide, .stepped .constructed rfl⟩
theorem witness_WordsExecuteInPresentedOrder : exampleState.pending = [] := by decide
theorem witness_RunEndsAfterFirstHalt : (∀ v ∈ [0x2107#16, 0xB107#16], opField v ≠ 12#4) ∧ opField 0xCABC#16 = 12#4 :=
  ⟨fun v hv => by
    rcases List.mem_pair.mp hv with rfl | rfl <;> decide, by decide⟩
theorem witness_SnapshotShowsRegistersAndMemory :
    exampleState.regs = ({ exampleState with pc := 0xFF#8 } : State).regs ∧
    exampleState.mem = ({ exampleState with pc := 0xFF#8 } : State).mem := by decide
theorem witness_LoaderPresentsValidTokens : tokenWellFormed ['f', 'F', '0', '9'] = true ∧ tokenWellFormed [] = false := by
  decide

end Sys2Proof.Tests
end

/-! ### Scope (spec 00_scope.md): wrapping arithmetic, what a step runs, what an effect depends on -/

namespace Sys2Proof.Machine

/-! ### `wrap8` and `sext_8` (R3, R4) -/

/-- R3: the value of `wrap8(n)`, on which every later fact about it rests. -/
theorem toNat_wrap8 (n : Int) : ((wrap8 n).toNat : Int) = n % 256 := by
  have hlow : 0 ≤ n % 256 := Int.emod_nonneg n (by decide)
  have hhigh : n % 256 < 256 := Int.emod_lt_of_pos n (by decide)
  rw [wrap8, BitVec.toNat_ofNat]
  omega

/-- Two integers wrap to the same Byte exactly when they differ by a multiple of 256. -/
theorem wrap8_eq_iff {m n : Int} : wrap8 m = wrap8 n ↔ m ≡ n [ZMOD 256] := by
  rw [← BitVec.toNat_inj, ← Int.natCast_inj, toNat_wrap8, toNat_wrap8, Int.ModEq]

/-- R4: the two halves of the two's-complement reading. -/
theorem sext8_cases (v : Byte) :
    (v.toNat ≤ 127 ∧ sext8 v = v.toNat) ∨ (128 ≤ v.toNat ∧ sext8 v = (v.toNat : Int) - 256) := by
  by_cases h : v.toNat ≤ 127
  · exact .inl ⟨h, if_pos h⟩
  · exact .inr ⟨by omega, if_neg h⟩

theorem sext8_bounds (v : Byte) : -128 ≤ sext8 v ∧ sext8 v ≤ 127 := by
  have hlt : v.toNat < 256 := v.isLt
  obtain ⟨hv, hs⟩ | ⟨hv, hs⟩ := sext8_cases v
  · omega
  · omega

/-- R93: the signed and the unsigned reading of a Byte are the same modulo 256. -/
theorem sext8_modEq (v : Byte) : sext8 v ≡ v.toNat [ZMOD 256] := by
  obtain ⟨-, hs⟩ | ⟨-, hs⟩ := sext8_cases v
  · rw [hs]
  · rw [hs, Int.ModEq, Int.sub_emod_right]

theorem sext8_emod (v : Byte) : sext8 v % 256 = v.toNat := by
  have hlt : v.toNat < 256 := v.isLt
  have hmod : sext8 v % 256 = (v.toNat : Int) % 256 := sext8_modEq v
  omega

/-- R93: the adds of opcodes 5 and 6 are one function on Bytes. -/
theorem addSigned_eq_addQ44 (p q : Byte) : addSigned p q = addQ44 p q :=
  wrap8_eq_iff.mpr ((sext8_modEq p).add (sext8_modEq q))

/-- Settles O7, by the value of `wrap8`. -/
theorem wrapIsRemainderModulo256 : Obligations.WrapIsRemainderModulo256 :=
  toNat_wrap8

/-- Settles O8: the two readings agree modulo 256, and congruent sums wrap alike. -/
theorem signedAndUnsignedSumsWrapAlike : Obligations.SignedAndUnsignedSumsWrapAlike := by
  refine ⟨fun v => ?_, addSigned_eq_addQ44⟩
  obtain ⟨hlow, hhigh⟩ := sext8_bounds v
  exact ⟨hlow, hhigh, sext8_emod v⟩

/-! ### The step at a presented Word (R5, R23, R70) -/

@[simp] theorem applyRst_false (o : Host.Outcome State Fault Refusal) : applyRst false o = o := by
  cases o <;> rfl

theorem applyWord_valid {p : PortSample} (h : p.execValid = true) (s : State) :
    applyWord p s = execute p.word s :=
  if_pos h

/-- One step takes the oldest sample: `Execute` where it presents a Word, then `rst`. -/
theorem step_of_pending {s : State} {p : PortSample} {rest : List PortSample} (h : s.pending = p :: rest) :
    step s = applyRst p.rst (applyWord p { s with pending := rest }) := by
  rw [step, clockStep, h]

/-- R70: without `rst`, a presented Word is executed. -/
theorem step_of_word {s : State} {p : PortSample} {rest : List PortSample} (h : s.pending = p :: rest)
    (hrst : p.rst = false) (hvalid : p.execValid = true) :
    step s = execute p.word { s with pending := rest } := by
  rw [step_of_pending h, applyWord_valid hvalid, hrst, applyRst_false]

/-- R148: the Word presented first is the one executed, on the state it was presented to. -/
theorem step_presentFirst (s : State) (w : Word) : step (s.presentFirst w) = execute w s := by
  rw [step_of_word (presentFirst_pending s w) rfl rfl]
  rfl

/-- A Word given to the host's `withFetchWord` as a number is presented unchanged. -/
theorem withFetchWord_toNat (s : State) (w : Word) : s.withFetchWord 16 w.toNat = s.presentFirst w := by
  rw [State.withFetchWord, Nat.mod_eq_of_lt w.isLt, BitVec.ofNat_toNat, BitVec.setWidth_eq]

/-- Settles O33, by the step at a presented Word. -/
theorem stepRunsPresentedWord : Obligations.StepRunsPresentedWord := by
  refine ⟨fun s p rest hpending hrst hvalid => step_of_word hpending hrst hvalid, fun s w => ?_⟩
  rw [withFetchWord_toNat, step_presentFirst, execute]

/-! ### What an effect depends on (R6, R13, R35) -/

theorem writeReg_returning_keepsRest (s : State) (a : RegIndex) (v : Byte) (st : Status) :
    KeepsRest s ((s.writeReg a v).returning st) :=
  ⟨rfl, rfl, rfl, rfl, rfl⟩

theorem writeMem_returning_keepsRest (s : State) (addr : Nat) (v : Byte) (st : Status) :
    KeepsRest s ((s.writeMem addr v).returning st) :=
  ⟨rfl, rfl, rfl, rfl, rfl⟩

theorem returning_keepsRest (s : State) (st : Status) : KeepsRest s (s.returning st) :=
  (returning_writesNothing s st).rest

/-- `exec_shape` for two states: where they agree on what the tables name as read, the same instruction writes the same
Byte to the same place in both, or returns the same status and writes nothing. -/
theorem exec_shape_of_sameOperands (i : Instr) {s s' : State}
    (hregs : ∀ r ∈ i.readRegs, regOperand s r = regOperand s' r)
    (hmem : ∀ n : Nat, i.loadedAddress = some n → s.readMem n = s'.readMem n) :
    (∃ a v, i.writtenReg = some a ∧ i.storedAddress = none ∧
      exec i s = .next ((s.writeReg a v).returning .CONTINUE) ∧
      exec i s' = .next ((s'.writeReg a v).returning .CONTINUE)) ∨
    (∃ addr v, i.writtenReg = none ∧ i.storedAddress = some (effectiveAddress addr) ∧
      exec i s = .next ((s.writeMem (effectiveAddress addr) v).returning .CONTINUE) ∧
      exec i s' = .next ((s'.writeMem (effectiveAddress addr) v).returning .CONTINUE)) ∨
    (∃ st, i.writtenReg = none ∧ i.storedAddress = none ∧
      exec i s = .next (s.returning st) ∧ exec i s' = .next (s'.returning st)) := by
  cases i with
  | ldm a addr =>
    have hbyte := hmem (effectiveAddress addr) rfl
    exact .inl ⟨a, _, rfl, rfl, rfl, by rw [hbyte]; rfl⟩
  | ldi a imm => exact .inl ⟨a, _, rfl, rfl, rfl, rfl⟩
  | mov a c =>
    have hc := hregs c (List.mem_singleton_self c)
    exact .inl ⟨a, _, rfl, rfl, rfl, by rw [hc]; rfl⟩
  | ror a k =>
    have ha := hregs a (List.mem_singleton_self a)
    exact .inl ⟨a, _, rfl, rfl, rfl, by rw [ha]; rfl⟩
  | adds a b c | addq a b c | or a b c | and a b c | xor a b c =>
    have hb := hregs b (List.mem_pair.mpr (.inl rfl))
    have hc := hregs c (List.mem_pair.mpr (.inr rfl))
    exact .inl ⟨a, _, rfl, rfl, rfl, by rw [hb, hc]; rfl⟩
  | stm a addr =>
    have ha := hregs a (List.mem_singleton_self a)
    exact .inr (.inl ⟨addr, _, rfl, rfl, rfl, by rw [ha]; rfl⟩)
  | nop0 | jeq _ _ | halt | jgt _ _ | nop14 | nop15 => exact .inr (.inr ⟨_, rfl, rfl, rfl, rfl⟩)

theorem regOperand_congr {s s' : State} (h : s.regs = s'.regs) (i : RegIndex) :
    regOperand s i = regOperand s' i := by
  rw [regOperand, regOperand, State.readReg, State.readReg, h]

theorem readMem_congr {s s' : State} (h : s.mem = s'.mem) (n : Nat) : s.readMem n = s'.readMem n := by
  rw [State.readMem, State.readMem, h]

/-- Settles O27: equal registers and memory give equal operands, so both states take the same write. -/
theorem effectDependsOnlyOnRegistersAndMemory : Obligations.EffectDependsOnlyOnRegistersAndMemory := by
  intro w s s' hregs hmem
  obtain ⟨a, v, -, -, ht, ht'⟩ | ⟨addr, v, -, -, ht, ht'⟩ | ⟨st, -, -, ht, ht'⟩ :=
    exec_shape_of_sameOperands (decode w) (fun r _ => regOperand_congr hregs r) (fun n _ => readMem_congr hmem n)
  · exact ⟨_, _, ht, ht', by simp [hregs], by simp [hmem], rfl,
      writeReg_returning_keepsRest s a v _, writeReg_returning_keepsRest s' a v _⟩
  · exact ⟨_, _, ht, ht', by simp [hregs], by simp [hmem], rfl,
      writeMem_returning_keepsRest s _ v _, writeMem_returning_keepsRest s' _ v _⟩
  · exact ⟨_, _, ht, ht', by simp [hregs], by simp [hmem], rfl,
      returning_keepsRest s st, returning_keepsRest s' st⟩

end Sys2Proof.Machine

/-! ### State (spec 10_state.md): what an instruction and a step can do to it, the invariant, reset, the snapshot -/

namespace Sys2Proof.Machine

/-! ### What one instruction can do (R13, R35, R76) -/

theorem exec_answers (i : Instr) (s : State) : ∃ t, exec i s = .next t :=
  (exec_haltPort i s).imp fun _ h => h.1

/-- `exec_shape` read from the next state: the inversion on which every fact about an instruction's effect rests. -/
theorem exec_cases {i : Instr} {s t : State} (h : exec i s = .next t) :
    (∃ a v, i.writtenReg = some a ∧ i.storedAddress = none ∧ t = (s.writeReg a v).returning .CONTINUE) ∨
    (∃ a addr, i = .stm a addr ∧
      t = (s.writeMem (effectiveAddress addr) (s.readReg a)).returning .CONTINUE) ∨
    (i.writtenReg = none ∧ i.storedAddress = none ∧
      t = s.returning (if i = .halt then .HALT else .CONTINUE)) := by
  obtain ⟨a, v, hw, hs, ht⟩ | ⟨a, addr, hi, ht⟩ | ⟨hw, hs, ht⟩ := exec_shape i s
  · exact .inl ⟨a, v, hw, hs, Host.Outcome.next.inj (h.symm.trans ht)⟩
  · exact .inr (.inl ⟨a, addr, hi, Host.Outcome.next.inj (h.symm.trans ht)⟩)
  · exact .inr (.inr ⟨hw, hs, Host.Outcome.next.inj (h.symm.trans ht)⟩)

section exec
variable {i : Instr} {s t : State} (h : exec i s = .next t)
include h

theorem exec_keepsRest : KeepsRest s t := by
  obtain ⟨a, v, -, -, rfl⟩ | ⟨a, addr, -, rfl⟩ | ⟨-, -, rfl⟩ := exec_cases h
  · exact writeReg_returning_keepsRest s a v _
  · exact writeMem_returning_keepsRest s _ _ _
  · exact returning_keepsRest s _

theorem exec_keeps_wf (hwf : s.mem.wf = true) : t.mem.wf = true := by
  obtain ⟨a, v, -, -, rfl⟩ | ⟨a, addr, -, rfl⟩ | ⟨-, -, rfl⟩ := exec_cases h
  · exact hwf
  · exact store_keeps_wf hwf _ _
  · exact hwf

theorem exec_status : t.status = some (if i = .halt then .HALT else .CONTINUE) := by
  obtain ⟨a, v, hw, -, rfl⟩ | ⟨a, addr, rfl, rfl⟩ | ⟨-, -, rfl⟩ := exec_cases h
  · have hne : i ≠ .halt := by rintro rfl; cases hw
    rw [if_neg hne, returning_status]
  · rfl
  · rfl

theorem exec_otherRegs (r : RegIndex) (hr : i.writtenReg ≠ some r) : t.readReg r = s.readReg r := by
  obtain ⟨a, v, hw, -, rfl⟩ | ⟨a, addr, -, rfl⟩ | ⟨-, -, rfl⟩ := exec_cases h
  · have hra : r ≠ a := fun e => hr (e ▸ hw)
    exact (writeReg_writesRegister s a v _).otherRegs r hra
  · rfl
  · rfl

theorem exec_otherBytes (hwf : s.mem.wf = true) (n : Nat) (hn : i.storedAddress ≠ some n) :
    t.readMem n = s.readMem n := by
  obtain ⟨a, v, -, -, rfl⟩ | ⟨a, addr, rfl, rfl⟩ | ⟨-, -, rfl⟩ := exec_cases h
  · rfl
  · have hna : n ≠ effectiveAddress addr := fun e => hn (e ▸ rfl)
    exact (writeMem_writesByte hwf (address_inBounds addr) _ _).otherBytes n hna
  · rfl

end exec

/-! ### The halt status and opcode 12 (R54, R76) -/

/-- R50, R54: the opcode field selects the instruction, one value at a time. -/
theorem opcode_decode (w : Word) : (decode w).opcode = opField w := by
  have hlt : (opField w).toNat < 16 := (opField w).isLt
  apply BitVec.eq_of_toNat_eq
  unfold decode
  generalize (opField w).toNat = op at hlt ⊢
  interval_cases op <;> rfl

theorem opcode_eq_twelve_iff (i : Instr) : i.opcode = 12#4 ↔ i = .halt := by
  cases i with
  | halt => exact iff_of_true rfl rfl
  | _ => exact iff_of_false (by simp [Instr.opcode]) nofun

theorem decode_eq_halt_iff (w : Word) : decode w = .halt ↔ opField w = 12#4 := by
  rw [← opcode_eq_twelve_iff, opcode_decode]

theorem haltPort_iff (s : State) : s.haltPort = true ↔ s.status = some .HALT :=
  beq_iff_eq

theorem execute_status {w : Word} {s t : State} (h : execute w s = .next t) :
    t.status = some (if opField w = 12#4 then .HALT else .CONTINUE) := by
  rw [exec_status h]
  simp only [decode_eq_halt_iff]

theorem execute_haltPort_iff {w : Word} {s t : State} (h : execute w s = .next t) :
    t.haltPort = true ↔ opField w = 12#4 := by
  rw [haltPort_iff, execute_status h]
  by_cases hop : opField w = 12#4
  · simp [hop]
  · simp [hop]

/-! ### What one step can do (R23) -/

theorem applyWord_invalid {p : PortSample} (h : p.execValid = false) (s : State) : applyWord p s = .next (idle s) :=
  if_neg (Bool.eq_false_iff.mp h)

theorem applyWord_answers (p : PortSample) (s : State) : ∃ u, applyWord p s = .next u := by
  cases hv : p.execValid with
  | true => exact applyWord_valid hv s ▸ exec_answers (decode p.word) s
  | false => exact ⟨_, applyWord_invalid hv s⟩

/-- What a sample does before `rst`. -/
theorem applyWord_cases {p : PortSample} {s u : State} (h : applyWord p s = .next u) :
    (p.execValid = true ∧ execute p.word s = .next u) ∨ (p.execValid = false ∧ u = idle s) := by
  cases hv : p.execValid with
  | true => exact .inl ⟨rfl, applyWord_valid hv s ▸ h⟩
  | false => exact .inr ⟨rfl, Host.Outcome.next.inj (h.symm.trans (applyWord_invalid hv s))⟩

theorem applyWord_keepsRest {p : PortSample} {s u : State} (h : applyWord p s = .next u) : KeepsRest s u := by
  obtain ⟨-, hexec⟩ | ⟨-, rfl⟩ := applyWord_cases h
  · exact exec_keepsRest hexec
  · exact ⟨rfl, rfl, rfl, rfl, rfl⟩

theorem applyWord_keeps_wf {p : PortSample} {s u : State} (h : applyWord p s = .next u) (hwf : s.mem.wf = true) :
    u.mem.wf = true := by
  obtain ⟨-, hexec⟩ | ⟨-, rfl⟩ := applyWord_cases h
  · exact exec_keeps_wf hexec hwf
  · exact hwf

theorem applyWord_haltPort_iff {p : PortSample} {s u : State} (h : applyWord p s = .next u) :
    u.haltPort = true ↔ p.execValid = true ∧ opField p.word = 12#4 := by
  obtain ⟨hv, hexec⟩ | ⟨hv, rfl⟩ := applyWord_cases h
  · rw [execute_haltPort_iff hexec, hv, eq_self_iff_true, true_and]
  · simp [haltPort_iff, hv]

theorem step_of_noSample {s : State} (h : s.pending = []) : step s = .next (idle s) := by
  rw [step, clockStep, h]

theorem step_answers (s : State) : SafeStep s := by
  cases h : s.pending with
  | nil => exact ⟨_, step_of_noSample h⟩
  | cons p rest =>
    obtain ⟨u, hu⟩ := applyWord_answers p { s with pending := rest }
    exact ⟨_, by rw [step_of_pending h, hu, applyRst]⟩

/-- The inversion of a step: it idles, or it takes the oldest sample, and then `rst` acts where it is asserted. -/
theorem step_cases {s t : State} (h : step s = .next t) :
    (s.pending = [] ∧ t = idle s) ∨
    ∃ p rest u, s.pending = p :: rest ∧ applyWord p { s with pending := rest } = .next u ∧
      t = if p.rst then resetCore u else u := by
  cases hp : s.pending with
  | nil => exact .inl ⟨rfl, Host.Outcome.next.inj (h.symm.trans (step_of_noSample hp))⟩
  | cons p rest =>
    obtain ⟨u, hu⟩ := applyWord_answers p { s with pending := rest }
    rw [step_of_pending hp, hu, applyRst] at h
    exact .inr ⟨p, rest, u, rfl, hu, (Host.Outcome.next.inj h).symm⟩

/-! ### The invariant (R14, R15, R22) -/

/-- The invariant speaks of memory and of `KeepsRest`'s fields only. -/
theorem inv_of_keepsRest {s t : State} (hs : s.Inv) (hrest : KeepsRest s t) (hwf : t.mem.wf = true) : t.Inv where
  memCanonical := hwf
  initMemCanonical := hrest.initMem ▸ hs.initMemCanonical
  pcAtReset := hrest.pc.trans hs.pcAtReset
  irAtReset := hrest.ir.trans hs.irAtReset

theorem inv_withPending {s : State} (hs : s.Inv) (samples : List PortSample) :
    State.Inv { s with pending := samples } :=
  ⟨hs.memCanonical, hs.initMemCanonical, hs.pcAtReset, hs.irAtReset⟩

theorem inv_idle {s : State} (hs : s.Inv) : (idle s).Inv :=
  ⟨hs.memCanonical, hs.initMemCanonical, hs.pcAtReset, hs.irAtReset⟩

theorem inv_resetCore {s : State} (hs : s.Inv) : (resetCore s).Inv :=
  ⟨hs.initMemCanonical, hs.initMemCanonical, rfl, rfl⟩

theorem inv_construct (x : RegFile) {m : Memory} (hm : m.wf = true) : (State.construct x m).Inv :=
  ⟨hm, hm, rfl, rfl⟩

theorem inv_applyWord {p : PortSample} {s u : State} (hs : s.Inv) (h : applyWord p s = .next u) : u.Inv :=
  inv_of_keepsRest hs (applyWord_keepsRest h) (applyWord_keeps_wf h hs.memCanonical)

/-- Settles O38, by the inversion of a step: idling, a Word's effect and `rst` each keep the invariant. -/
theorem stepKeepsInvariant : Obligations.StepKeepsInvariant := by
  intro s t hs hstep
  obtain ⟨-, rfl⟩ | ⟨p, rest, u, -, hu, rfl⟩ := step_cases hstep
  · exact inv_idle hs
  · have hinv : u.Inv := inv_applyWord (inv_withPending hs rest) hu
    split
    · exact inv_resetCore hinv
    · exact hinv

/-- Settles O39: both memories of a construction are `INIT_MEM`. -/
theorem constructedCoreMeetsInvariant : Obligations.ConstructedCoreMeetsInvariant :=
  ⟨inv_construct Config.initRegs rfl, fun x _ hm => inv_construct x hm⟩

/-! ### Reachable states (R24, R77) -/

/-- Log 8: no step writes the construction parameters. -/
theorem step_keeps_parameters {s t : State} (h : step s = .next t) :
    t.initRegs = s.initRegs ∧ t.initMem = s.initMem := by
  obtain ⟨-, rfl⟩ | ⟨p, rest, u, -, hu, rfl⟩ := step_cases h
  · exact ⟨rfl, rfl⟩
  · have hrest := applyWord_keepsRest hu
    split
    · exact ⟨hrest.initRegs, hrest.initMem⟩
    · exact ⟨hrest.initRegs, hrest.initMem⟩

theorem reachable_inv {x : RegFile} {m : Memory} (hm : m.wf = true) {s : State} (h : Reachable x m s) : s.Inv := by
  induction h with
  | constructed => exact inv_construct x hm
  | presented samples _ ih => exact inv_withPending ih samples
  | stepped _ hstep ih => exact stepKeepsInvariant _ _ ih hstep

theorem reachable_parameters {x : RegFile} {m : Memory} {s : State} (h : Reachable x m s) :
    s.initRegs = x ∧ s.initMem = m := by
  induction h with
  | constructed => exact ⟨rfl, rfl⟩
  | presented _ _ ih => exact ih
  | stepped _ hstep ih =>
    obtain ⟨hregs, hmem⟩ := step_keeps_parameters hstep
    exact ⟨hregs.trans ih.1, hmem.trans ih.2⟩

/-- Settles O40, by induction over the run for the invariant and for the parameters; every step is safe. -/
theorem reachableStatesMeetInvariant : Obligations.ReachableStatesMeetInvariant := by
  intro x m hm s hs
  obtain ⟨hregs, hmem⟩ := reachable_parameters hs
  exact ⟨reachable_inv hm hs, hregs, hmem, step_answers s⟩

/-! ### Frames, operands and status of every instruction -/

/-- Settles O26, by the inversion of `exec`. -/
theorem everyInstructionKeepsItsFrame : Obligations.EveryInstructionKeepsItsFrame := by
  intro i s hwf
  obtain ⟨t, ht⟩ := exec_answers i s
  exact ⟨t, ht, exec_otherRegs ht, exec_otherBytes ht hwf, exec_keepsRest ht, exec_status ht⟩

/-- Settles O28: equal operands give the same write in both states, and a read returns what was written. -/
theorem resultDependsOnlyOnNamedOperands : Obligations.ResultDependsOnlyOnNamedOperands := by
  intro i s s' hwf hwf' hregs hmem
  obtain ⟨a, v, hw, hs, ht, ht'⟩ | ⟨addr, v, hw, hs, ht, ht'⟩ | ⟨st, hw, hs, ht, ht'⟩ :=
    exec_shape_of_sameOperands i hregs hmem
  · refine ⟨_, _, ht, ht', rfl, fun r hr => ?_, by simp [hs]⟩
    obtain rfl : a = r := Option.some.inj (hw.symm.trans hr)
    rw [(writeReg_writesRegister s a v _).written, (writeReg_writesRegister s' a v _).written]
  · refine ⟨_, _, ht, ht', rfl, by simp [hw], fun n hn => ?_⟩
    obtain rfl : effectiveAddress addr = n := Option.some.inj (hs.symm.trans hn)
    have hin := address_inBounds addr
    rw [(writeMem_writesByte hwf hin v _).written, (writeMem_writesByte hwf' hin v _).written]
  · exact ⟨_, _, ht, ht', rfl, by simp [hw], by simp [hs]⟩

/-- Settles O29: the decoder reads HALT exactly from opcode 12. -/
theorem haltExactlyForOpcodeTwelve : Obligations.HaltExactlyForOpcodeTwelve := by
  intro w s
  obtain ⟨t, ht⟩ := exec_answers (decode w) s
  refine ⟨t, ht, execute_haltPort_iff ht, ?_⟩
  rw [execute_status ht]
  by_cases hop : opField w = 12#4
  · simp [hop]
  · simp [hop]

/-! ### Addresses and register indices in range (R13, R34) -/

theorem loadedAddress_lt {i : Instr} {n : Nat} (h : i.loadedAddress = some n) : n < Config.memSize := by
  cases i with
  | ldm a addr => exact Option.some.inj h ▸ address_inBounds addr
  | _ => cases h

theorem storedAddress_lt {i : Instr} {n : Nat} (h : i.storedAddress = some n) : n < Config.memSize := by
  cases i with
  | stm a addr => exact Option.some.inj h ▸ address_inBounds addr
  | _ => cases h

/-- Settles O31: an address comes from a field of 8 bits, an index from one of 4. -/
theorem instructionsStayInRange : Obligations.InstructionsStayInRange :=
  fun _ => ⟨fun _ h => loadedAddress_lt h, fun _ h => storedAddress_lt h, fun r _ => regIndex_inBounds r⟩

/-! ### Equal reads, equal data (R21, log 24) -/

theorem lookup_cons_self (k : Nat) (v : Byte) (m : Memory) : Memory.lookup ((k, v) :: m) k = v :=
  if_pos rfl

theorem lookup_cons_ne {n k : Nat} (h : n ≠ k) (v : Byte) (m : Memory) :
    Memory.lookup ((k, v) :: m) n = Memory.lookup m n :=
  if_neg h

/-- The first listed address of a canonical list is at or above that of another with the same contents. -/
theorem first_address_le {low k k' : Nat} {v v' : Byte} {m m' : Memory}
    (h : Memory.wfFrom low ((k, v) :: m) = true) (h' : Memory.wfFrom low ((k', v') :: m') = true)
    (heq : ∀ n, Memory.lookup ((k, v) :: m) n = Memory.lookup ((k', v') :: m') n) : k' ≤ k := by
  rw [wfFrom_cons] at h h'
  obtain ⟨-, -, hv, -⟩ := h
  by_contra hlt
  have hfrom : Memory.wfFrom k' ((k', v') :: m') = true := wfFrom_cons.mpr ⟨le_refl k', h'.2⟩
  exact hv (by rw [← lookup_cons_self k v m, heq, lookup_below hfrom (Nat.lt_of_not_le hlt)])

/-- Canonical lists of cells are determined by their contents. -/
theorem eq_of_lookup_eq {low : Nat} {m m' : Memory} (h : Memory.wfFrom low m = true)
    (h' : Memory.wfFrom low m' = true) (heq : ∀ n, Memory.lookup m n = Memory.lookup m' n) : m = m' := by
  induction m generalizing low m' with
  | nil =>
    cases m' with
    | nil => rfl
    | cons c' rest' =>
      obtain ⟨k', v'⟩ := c'
      exact absurd ((lookup_cons_self k' v' rest').symm.trans (heq k').symm) (wfFrom_cons.mp h').2.2.1
  | cons c rest ih =>
    obtain ⟨k, v⟩ := c
    cases m' with
    | nil => exact absurd ((lookup_cons_self k v rest).symm.trans (heq k)) (wfFrom_cons.mp h).2.2.1
    | cons c' rest' =>
      obtain ⟨k', v'⟩ := c'
      obtain rfl : k = k' :=
        Nat.le_antisymm (first_address_le h' h fun n => (heq n).symm) (first_address_le h h' heq)
      obtain rfl : v = v' := by simpa only [lookup_cons_self] using heq k
      obtain ⟨-, -, -, hrest⟩ := wfFrom_cons.mp h
      obtain ⟨-, -, -, hrest'⟩ := wfFrom_cons.mp h'
      have htail : ∀ n, Memory.lookup rest n = Memory.lookup rest' n := by
        intro n
        by_cases hn : n = k
        · rw [hn, lookup_below hrest (Nat.lt_succ_self k), lookup_below hrest' (Nat.lt_succ_self k)]
        · simpa only [lookup_cons_ne hn] using heq n
      rw [ih hrest hrest' htail]

theorem read_of_lt (m : Memory) {n : Nat} (h : n < Config.memSize) : m.read n = Memory.lookup m n :=
  if_pos h

theorem regFile_read_of_lt (x : RegFile) {n : Nat} (h : n < Config.regCount) : RegFile.read x n = x[n] :=
  dif_pos h

/-- Settles O32: a canonical memory is determined by what it holds at every address, a vector by its entries. -/
theorem equalReadsAreEqualData : Obligations.EqualReadsAreEqualData := by
  refine ⟨fun m m' hm hm' hread => eq_of_lookup_eq hm hm' fun n => ?_, fun x x' hread => Vector.ext fun n hn => ?_⟩
  · by_cases hn : n < Config.memSize
    · rw [← read_of_lt m hn, ← read_of_lt m' hn, hread n hn]
    · rw [lookup_past_size hm (Nat.le_of_not_lt hn), lookup_past_size hm' (Nat.le_of_not_lt hn)]
  · rw [← regFile_read_of_lt x hn, ← regFile_read_of_lt x' hn, hread n hn]

/-! ### Reset and the ports (R23, R24, R140, R141) -/

/-- R23, R140: with `rst` the step ends in the reset state, whatever the sample's Word did before. -/
theorem step_of_rst {s u : State} {p : PortSample} {rest : List PortSample} (h : s.pending = p :: rest)
    (hrst : p.rst = true) (hu : applyWord p { s with pending := rest } = .next u) :
    step s = .next (resetCore u) := by
  rw [step_of_pending h, hu, hrst]
  rfl

/-- R141: without a Word and without `rst` the step only takes the sample. -/
theorem step_of_noWord {s : State} (h : ∀ p ∈ s.pending.head?, p.rst = false ∧ p.execValid = false) :
    step s = .next (idle { s with pending := s.pending.tail }) := by
  cases hp : s.pending with
  | nil =>
    rw [step_of_noSample hp, List.tail_nil, ← hp]
  | cons p rest =>
    obtain ⟨hrst, hvalid⟩ := h p (by rw [hp]; rfl)
    rw [step_of_pending hp, applyWord_invalid hvalid, hrst, applyRst_false, List.tail_cons]

/-- Settles O35: `rst` restores the parameters, which the Word's effect kept, and leaves its status. -/
theorem stepWithRstRestoresReset : Obligations.StepWithRstRestoresReset := by
  intro s p rest hpending hrst
  obtain ⟨u, hu⟩ := applyWord_answers p { s with pending := rest }
  have hrest := applyWord_keepsRest hu
  have hhalt := applyWord_haltPort_iff hu
  exact ⟨resetCore u, step_of_rst hpending hrst hu, hrest.initRegs, hrest.initMem, rfl, rfl,
    hrest.initRegs, hrest.initMem, hrest.pending, hhalt⟩

/-- Settles O34: the step idles, and idling writes only the status. -/
theorem stepWithoutWordDoesNothing : Obligations.StepWithoutWordDoesNothing := fun _ h =>
  ⟨_, step_of_noWord h, fun _ => rfl, fun _ => rfl, rfl, rfl, rfl, rfl, rfl, rfl, rfl⟩

/-- Settles O36, by the fields of a construction. -/
theorem constructionSetsResetValues : Obligations.ConstructionSetsResetValues :=
  ⟨fun _ _ => ⟨fun _ => rfl, fun _ => rfl, rfl, rfl, rfl, rfl⟩, rfl⟩

/-! ### The snapshot (R20) -/

theorem snapshotRegs_getElem? (s : State) (r : RegIndex) : s.snapshotRegs[r.toNat]? = some (s.readReg r) := by
  have hr : r.toNat < 16 := r.isLt
  rw [State.snapshotRegs, List.getElem?_map, List.getElem?_range hr, Option.map_some, BitVec.ofNat_toNat,
    BitVec.setWidth_eq, State.snapRegData]

theorem snapshotMem_getElem? (s : State) (a : Address) : s.snapshotMem[a.toNat]? = some (s.readMem a.toNat) := by
  have ha : a.toNat < 256 := a.isLt
  rw [State.snapshotMem, List.getElem?_map, List.getElem?_range ha, Option.map_some, BitVec.ofNat_toNat,
    BitVec.setWidth_eq, State.snapMemData]

theorem snapshotRegs_congr {s s' : State} (h : s.regs = s'.regs) : s.snapshotRegs = s'.snapshotRegs :=
  List.map_congr_left fun i _ => regOperand_congr h (BitVec.ofNat 4 i)

theorem snapshotMem_congr {s s' : State} (h : s.mem = s'.mem) : s.snapshotMem = s'.snapshotMem :=
  List.map_congr_left fun n _ => readMem_congr h (BitVec.ofNat 8 n).toNat

/-- Settles O44: entry by entry, and by congruence in the registers and the memory. -/
theorem snapshotShowsRegistersAndMemory : Obligations.SnapshotShowsRegistersAndMemory := by
  refine ⟨fun s => ⟨?_, ?_, fun r => ⟨snapshotRegs_getElem? s r, rfl⟩, fun a => ⟨snapshotMem_getElem? s a, rfl⟩⟩,
    fun s s' hregs hmem => ⟨snapshotRegs_congr hregs, snapshotMem_congr hmem⟩⟩
  · rw [State.snapshotRegs, List.length_map, List.length_range]
  · rw [State.snapshotMem, List.length_map, List.length_range]

end Sys2Proof.Machine

/-! ### Memory (spec 20_memory.md): the Memory block, load after store, the order of presented Words, the datapath -/

namespace Sys2Proof.Machine

/-! ### The Memory block (R30, R31, R32) -/

/-- R31: "no other cell changes", whether or not the store is in range. -/
theorem read_store_ne {m : Memory} (h : m.wf = true) {a n : Nat} (hn : n ≠ a) (v : Byte) :
    (m.store a v).read n = m.read n := by
  obtain ha | ha := Nat.lt_or_ge a Config.memSize
  · rw [read_store h ha, if_neg hn]
  · rw [store_past_size m ha]

/-- R31 with `size = 16`: no other register changes, whether or not the store is in range. -/
theorem regFile_read_store_ne (x : RegFile) {a n : Nat} (hn : n ≠ a) (v : Byte) :
    RegFile.read (RegFile.store x a v) n = RegFile.read x n := by
  obtain ha | ha := Nat.lt_or_ge a Config.regCount
  · rw [regFile_read_store x ha, if_neg hn]
  · rw [regFile_store_past_size x ha]

/-- Settles O30: each block in turn, by the laws of its `read` and `store` within and past its size. -/
theorem memoryBlockContract : Obligations.MemoryBlockContract := by
  refine ⟨fun m addr v hm => ⟨fun hin => ?_, fun n hn => read_store_ne hm hn v,
      fun hout => ⟨read_past_size m hout, store_past_size m hout v⟩, rfl, rfl⟩,
    fun x addr v => ⟨fun hin => ?_, fun n hn => regFile_read_store_ne x hn v,
      fun hout => ⟨regFile_read_past_size x hout, regFile_store_past_size x hout v⟩, rfl, rfl⟩⟩
  · rw [read_store hm hin, if_pos rfl]
  · rw [regFile_read_store x hin, if_pos rfl]

/-! ### A load after a store (R80, R82) -/

theorem exec_stm (a : RegIndex) (addr : Address) (s : State) :
    exec (.stm a addr) s = .next ((s.writeMem (effectiveAddress addr) (s.readReg a)).returning .CONTINUE) :=
  rfl

theorem exec_ldm (a : RegIndex) (addr : Address) (s : State) :
    exec (.ldm a addr) s = .next ((s.writeReg a (s.readMem (effectiveAddress addr))).returning .CONTINUE) :=
  rfl

/-- Settles O15: the loaded byte is what memory holds after the store, at the stored address or at another. -/
theorem loadAfterStore : Obligations.LoadAfterStore := by
  intro a b addr addr' s hwf
  refine ⟨_, _, exec_stm a addr s, exec_ldm b addr' _, ?_⟩
  rw [(writeReg_writesRegister _ b _ _).written, returning_readMem,
    readMem_writeMem _ _ hwf (address_inBounds addr)]
  simp only [effectiveAddress, BitVec.toNat_inj]

/-! ### The order of presented Words (R41, R45, R113) -/

/-- A step consumes the oldest sample, whether it idles, executes a Word or resets. -/
theorem step_pending {s t : State} (h : step s = .next t) : t.pending = s.pending.tail := by
  obtain ⟨hp, rfl⟩ | ⟨p, rest, u, hp, hu, rfl⟩ := step_cases h
  · rw [idle_pending, hp, List.tail_nil]
  · have hrest : u.pending = rest := (applyWord_keepsRest hu).pending
    rw [hp, List.tail_cons]
    split
    · rw [resetCore_pending, hrest]
    · exact hrest

/-- Settles O41, by what a step does to the queue. -/
theorem nothingChangesTheNextWord : Obligations.NothingChangesTheNextWord := fun s =>
  (step_answers s).imp fun _ ht => ⟨ht, step_pending ht⟩

/-- R45: what is presented next has no part in the effect of an instruction. -/
theorem exec_withPending {i : Instr} {s t : State} (h : exec i s = .next t) (samples : List PortSample) :
    exec i { s with pending := samples } = .next { t with pending := samples } := by
  obtain ⟨a, v, -, -, ht, ht'⟩ | ⟨addr, v, -, -, ht, ht'⟩ | ⟨st, -, -, ht, ht'⟩ :=
    exec_shape_of_sameOperands i (s := s) (s' := { s with pending := samples }) (fun _ _ => rfl) (fun _ _ => rfl)
  · obtain rfl := Host.Outcome.next.inj (h.symm.trans ht)
    exact ht'
  · obtain rfl := Host.Outcome.next.inj (h.symm.trans ht)
    exact ht'
  · obtain rfl := Host.Outcome.next.inj (h.symm.trans ht)
    exact ht'

/-- The step that takes a presented Word leaves the samples after it for the next step. -/
theorem step_of_presented {w : Word} {s t : State} (h : execute w s = .next t) (samples : List PortSample) :
    step { s with pending := presents w :: samples } = .next { t with pending := samples } := by
  rw [step_of_word rfl rfl rfl]
  exact exec_withPending h samples

/-- A run of the host goes on from the state its first step answers. -/
theorem core_run_succ {s t : State} (h : step s = .next t) (k : Nat) : core.run (k + 1) s = core.run k t := by
  have hstep : core.step s = .next t := h
  simp only [Host.Core.run, hstep]

/-- Settles O42, by induction on the list of Words: each step executes its first Word and leaves the others. -/
theorem wordsExecuteInPresentedOrder : Obligations.WordsExecuteInPresentedOrder := by
  intro ws
  induction ws with
  | nil =>
    intro s hs
    rw [List.map_nil, ← hs]
    rfl
  | cons w ws ih =>
    intro s hs
    obtain ⟨t, ht⟩ := exec_answers (decode w) s
    have hempty : t.pending = [] := (exec_keepsRest ht).pending.trans hs
    rw [executeAll_cons ht ws, ← ih t hempty]
    exact core_run_succ (step_of_presented ht (ws.map presents)) ws.length

/-! ### The datapath (R47, R62) -/

/-- R62: the ALU's shift amount, widened from the field `c`, is the step count of R53. -/
theorem stepCount_eq_shiftAmount (c : Steps) : stepCount c = (c.setWidth 8).toNat :=
  (BitVec.toNat_setWidth_of_le (by decide)).symm

/-- Settles O47, row by row of R62: what the row drives is what the meaning of its opcode reads and writes; only the
rotate's shift amount is first widened to the ALU's operand. -/
theorem datapathComputesExecute : Obligations.DatapathComputesExecute := by
  intro w s
  have hlt : (opField w).toNat < 16 := (opField w).isLt
  unfold execute datapath decode controlOf
  generalize (opField w).toNat = op at hlt ⊢
  match op, hlt with
  | 0, _ | 14, _ | 15, _ => rfl
  | 1, _ | 2, _ | 3, _ | 4, _ => rfl
  | 5, _ | 6, _ | 7, _ | 8, _ | 9, _ => rfl
  | 10, _ =>
    simp only [exec, execRor, stepCount_eq_shiftAmount]
    rfl
  | 11, _ | 12, _ | 13, _ => rfl
  | n + 16, h => omega

end Sys2Proof.Machine

/-! ### Encoding (spec 30_encoding.md): round trips, ignored bits, the opcode table, tokens, control outputs -/

namespace Sys2Proof.Machine

/-! ### Decoding an encoded instruction (R50, R51, R60) -/

/-- R54, R60: bits 15:12 of the canonical Word are the opcode, constructor by constructor. -/
theorem opField_encode (i : Instr) : opField (encode i) = i.opcode := by
  cases i with
  | nop0 | halt | nop14 | nop15 => rfl
  | ldm a n | ldi a n | stm a n | jeq a n | jgt a n => exact opField_imm _ a n
  | mov a c | ror a c => exact opField_four _ a _ c
  | adds a b c | addq a b c | or a b c | and a b c | xor a b c => exact opField_four _ a b c

/-- R60: the opcode selects the constructor again, and each operand is the field it was put in. -/
theorem decode_encode (i : Instr) : decode (encode i) = i := by
  unfold decode
  rw [opField_encode]
  cases i with
  | nop0 | halt | nop14 | nop15 => rfl
  | ldm a n | ldi a n | stm a n | jeq a n | jgt a n => simp [Instr.opcode, encode, aField_imm, imm8Field_imm]
  | mov a c | ror a c => simp [Instr.opcode, encode, aField_four, cField_four]
  | adds a b c | addq a b c | or a b c | and a b c | xor a b c =>
    simp [Instr.opcode, encode, aField_four, bField_four, cField_four]

/-- Settles O2: `wellFormed` refuses no instruction (R57), so the round trip holds of all. -/
theorem decodeOfEncodeIsIdentity : Obligations.DecodeOfEncodeIsIdentity :=
  fun i _ => decode_encode i

/-! ### A Word and its fields, used and ignored (R51, R52) -/

theorem fields_append (w : Word) : opField w ++ aField w ++ bField w ++ cField w = w := by
  rw [opField, aField, bField, cField, BitVec.extractLsb'_append_extractLsb'_eq_extractLsb' (by rfl),
    BitVec.extractLsb'_append_extractLsb'_eq_extractLsb' (by rfl),
    BitVec.extractLsb'_append_extractLsb'_eq_extractLsb' (by rfl), BitVec.extractLsb'_eq_self]

theorem fields_append_imm (w : Word) : opField w ++ aField w ++ imm8Field w = w := by
  rw [opField, aField, imm8Field, BitVec.extractLsb'_append_extractLsb'_eq_extractLsb' (by rfl),
    BitVec.extractLsb'_append_extractLsb'_eq_extractLsb' (by rfl), BitVec.extractLsb'_eq_self]

theorem and_ones (x : BitVec 4) : x &&& 0xF#4 = x :=
  BitVec.and_allOnes

/-- Masking a Word masks each field with the mask's. -/
theorem and_fields (w : Word) (mop ma mb mc : BitVec 4) :
    w &&& (mop ++ ma ++ mb ++ mc) =
      (opField w &&& mop) ++ (aField w &&& ma) ++ (bField w &&& mb) ++ (cField w &&& mc) := by
  conv_lhs => rw [← fields_append w]
  rw [BitVec.and_append, BitVec.and_append, BitVec.and_append]

/-- R52, formats RR and RS: field `b` is ignored. -/
theorem and_FF0F (w : Word) : w &&& 0xFF0F#16 = opField w ++ aField w ++ 0x0#4 ++ cField w :=
  (and_fields w 0xF#4 0xF#4 0x0#4 0xF#4).trans (by simp only [and_ones, BitVec.and_zero])

/-- R52, format N: only the opcode is used. -/
theorem and_F000 (w : Word) : w &&& 0xF000#16 = opField w ++ 0x0#4 ++ 0x0#4 ++ 0x0#4 :=
  (and_fields w 0xF#4 0x0#4 0x0#4 0x0#4).trans (by simp only [and_ones, BitVec.and_zero])

/-- R60, format N: everything below the opcode is 0. -/
theorem encode_of_format_N {i : Instr} (h : i.format = .N) : encode i = i.opcode ++ 0x0#4 ++ 0x0#4 ++ 0x0#4 := by
  cases i with
  | nop0 | halt | nop14 | nop15 => decide
  | _ => cases h

/-- R52, R55, R60: each format puts back the fields it uses, and 0 in the others. -/
theorem encode_decode (w : Word) : encode (decode w) = w &&& (decode w).format.usedBits := by
  have hlt : (opField w).toNat < 16 := (opField w).isLt
  have hall : w = w &&& 0xFFFF#16 := BitVec.and_allOnes.symm
  have hRI := fields_append_imm w
  have hRRR := fields_append w
  have hRR := and_FF0F w
  have hN := and_F000 w
  rw [← opcode_decode] at hRI hRRR hRR hN
  unfold decode at hRI hRRR hRR hN ⊢
  generalize (opField w).toNat = op at hlt hRI hRRR hRR hN ⊢
  match op, hlt with
  | 0, _ | 12, _ | 14, _ | 15, _ => exact (encode_of_format_N rfl).trans hN.symm
  | 1, _ | 2, _ | 3, _ | 11, _ | 13, _ => exact hRI.trans hall
  | 4, _ | 10, _ => exact hRR.symm
  | 5, _ | 6, _ | 7, _ | 8, _ | 9, _ => exact hRRR.trans hall
  | n + 16, h => omega

/-- Settles O3, format by format. -/
theorem encodeOfDecodeClearsIgnoredBits : Obligations.EncodeOfDecodeClearsIgnoredBits :=
  encode_decode

/-! ### The opcode table (R54) -/

/-- The row of R54 for an instruction: exactly the opcodes 1 to 13 have a handler. -/
def tableRow (i : Instr) : OpcodeRow :=
  ⟨i.opcode, i.mnemonic, i.format, decide (1 ≤ i.opcode.toNat ∧ i.opcode.toNat ≤ 13)⟩

theorem tableRow_mem (i : Instr) : tableRow i ∈ opcodeTable := by
  cases i <;> simp [tableRow, opcodeTable, Instr.opcode, Instr.mnemonic, Instr.format]

/-- No opcode has two rows. -/
theorem row_eq_of_op_eq {r r' : OpcodeRow} (h : r ∈ opcodeTable) (h' : r' ∈ opcodeTable) (hop : r.op = r'.op) :
    r = r' :=
  List.inj_on_of_nodup_map (f := OpcodeRow.op) (by decide) h h' hop

/-- R52, R54: the opcode alone fixes the format. -/
theorem format_eq_of_opcode_eq {i j : Instr} (h : i.opcode = j.opcode) : i.format = j.format :=
  congrArg OpcodeRow.format (row_eq_of_op_eq (tableRow_mem i) (tableRow_mem j) h)

theorem pattern_toNat (r : OpcodeRow) : r.pattern.toNat = r.op.toNat * 2 ^ 12 := by
  have hlt : r.op.toNat < 16 := r.op.isLt
  rw [OpcodeRow.pattern, BitVec.toNat_shiftLeft, BitVec.toNat_setWidth_of_le (by decide), Nat.shiftLeft_eq]
  omega

theorem pattern_eq_append (r : OpcodeRow) : r.pattern = r.op ++ 0x0#4 ++ 0x0#4 ++ 0x0#4 := by
  have h : ∀ op : BitVec 4, op.setWidth 16 <<< 12 = op ++ 0x0#4 ++ 0x0#4 ++ 0x0#4 := by decide
  exact h r.op

/-- R54: mask and match compare the opcode field and nothing else. -/
theorem selects_iff (r : OpcodeRow) (w : Word) : r.selects w = true ↔ r.op = opField w := by
  rw [OpcodeRow.selects, OpcodeRow.mask, beq_iff_eq, and_F000, pattern_eq_append]
  refine ⟨fun h => ?_, fun h => by rw [h]⟩
  have hop := congrArg opField h
  rw [opField_four, opField_four] at hop
  exact hop.symm

/-- Settles O5: the row of the decoded instruction is selected, and no opcode has another. -/
theorem oneTableRowSelectsEachWord : Obligations.OneTableRowSelectsEachWord := by
  refine ⟨rfl, rfl, fun r _ => ⟨rfl, pattern_toNat r⟩, fun w => ?_⟩
  have hmem := tableRow_mem (decode w)
  have hop : (tableRow (decode w)).op = opField w := opcode_decode w
  refine ⟨tableRow (decode w), hmem, fun r hr => ?_, hop, rfl, rfl, rfl⟩
  rw [selects_iff, ← hop]
  exact ⟨row_eq_of_op_eq hr hmem, congrArg OpcodeRow.op⟩

/-! ### Ignored bits (R55) -/

theorem opField_and (w mask : Word) : opField (w &&& mask) = opField w &&& opField mask :=
  BitVec.extractLsb'_and

/-- R55: the decoder reads only the bits its format uses. -/
theorem decode_and_usedBits (w : Word) : decode (w &&& (decode w).format.usedBits) = decode w := by
  rw [← encode_decode, decode_encode]

/-- Words that agree on the bits that the format of one of them uses decode alike: the opcode is among these bits, so
both have that format. -/
theorem decode_eq_of_and_usedBits_eq {w w' mask : Word} (h : w &&& mask = w' &&& mask)
    (hmask : opField mask = 0xF#4) (hused : (decode w).format.usedBits = mask) : decode w = decode w' := by
  have hop : opField w = opField w' := by
    have hand := congrArg opField h
    rwa [opField_and, opField_and, hmask, and_ones, and_ones] at hand
  have hformat : (decode w').format = (decode w).format :=
    format_eq_of_opcode_eq (by rw [opcode_decode, opcode_decode, hop])
  calc decode w = decode (w &&& mask) := by rw [← hused, decode_and_usedBits]
    _ = decode (w' &&& mask) := by rw [h]
    _ = decode w' := by rw [← hused, ← hformat, decode_and_usedBits]

/-- R52, R54: opcodes 4 and 10 ignore bits 7:4. -/
theorem usedBits_of_opcode_RR {i : Instr} (h : i.opcode = 4#4 ∨ i.opcode = 10#4) :
    i.format.usedBits = 0xFF0F#16 := by
  cases i with
  | mov _ _ | ror _ _ => rfl
  | _ => simp [Instr.opcode] at h

/-- R52, R54: opcodes 0, 12, 14 and 15 ignore bits 11:0. -/
theorem usedBits_of_opcode_N {i : Instr}
    (h : i.opcode = 0#4 ∨ i.opcode = 12#4 ∨ i.opcode = 14#4 ∨ i.opcode = 15#4) :
    i.format.usedBits = 0xF000#16 := by
  cases i with
  | nop0 | halt | nop14 | nop15 => rfl
  | _ => simp [Instr.opcode] at h

/-- Settles O4: Words that decode alike are executed alike. -/
theorem ignoredBitsHaveNoEffect : Obligations.IgnoredBitsHaveNoEffect := by
  refine ⟨fun w w' h hop s => ?_, fun w w' h hop s => ?_⟩
  · rw [← opcode_decode] at hop
    rw [execute, execute, decode_eq_of_and_usedBits_eq h rfl (usedBits_of_opcode_RR hop)]
  · rw [← opcode_decode] at hop
    rw [execute, execute, decode_eq_of_and_usedBits_eq h rfl (usedBits_of_opcode_N hop)]

/-! ### The loader's token (R36, R59) -/

theorem toNat_append_eq_add {m n : Nat} (x : BitVec m) (y : BitVec n) :
    (x ++ y).toNat = x.toNat * 2 ^ n + y.toNat := by
  rw [BitVec.toNat_append, ← Nat.shiftLeft_add_eq_or_of_lt y.isLt, Nat.shiftLeft_eq]

theorem parseToken_of_digits {d3 d2 d1 d0 : Char} {v3 v2 v1 v0 : BitVec 4} (h3 : hexDigit? d3 = some v3)
    (h2 : hexDigit? d2 = some v2) (h1 : hexDigit? d1 = some v1) (h0 : hexDigit? d0 = some v0) :
    parseToken [d3, d2, d1, d0] = .ok (v3 ++ v2 ++ v1 ++ v0) := by
  simp only [parseToken, h3, h2, h1, h0]

/-- A token is accepted exactly if it is four hexadecimal digits. -/
theorem parseToken_cases (token : List Char) :
    (tokenWellFormed token = true ∧ ∃ w, parseToken token = .ok w) ∨
    (tokenWellFormed token = false ∧ ∃ why, parseToken token = .error why) := by
  unfold parseToken
  split
  · next d3 d2 d1 d0 =>
    split
    · next v3 v2 v1 v0 h3 h2 h1 h0 => exact .inl ⟨by simp [tokenWellFormed, h3, h2, h1, h0], _, rfl⟩
    · next h =>
      refine .inr ⟨Bool.eq_false_iff.mpr fun hgood => ?_, _, rfl⟩
      simp only [tokenWellFormed, List.all_cons, List.all_nil, Bool.and_eq_true, Option.isSome_iff_exists] at hgood
      obtain ⟨-, ⟨v3, h3⟩, ⟨v2, h2⟩, ⟨v1, h1⟩, ⟨v0, h0⟩, -⟩ := hgood
      exact h v3 v2 v1 v0 h3 h2 h1 h0
  · next h =>
    refine .inr ⟨?_, _, rfl⟩
    have hlength : token.length ≠ 4 := fun h4 => by
      obtain ⟨d3, d2, d1, d0, rfl⟩ := List.length_eq_four.mp h4
      exact h d3 d2 d1 d0 rfl
    simp [tokenWellFormed, hlength]

theorem some_ofNat_eq_some_iff (n : Nat) (v : BitVec 4) : some (BitVec.ofNat 4 n) = some v ↔ n % 16 = v.toNat := by
  rw [Option.some_inj, ← BitVec.toNat_inj, BitVec.toNat_ofNat]

/-- R59: the code of a hexadecimal digit: 48 is that of '0', and the letters stand 39 further in lower case and 7 in
upper case. -/
theorem hexDigit?_eq_some_iff (ch : Char) (v : BitVec 4) :
    hexDigit? ch = some v ↔
      ch.toNat = 48 + v.toNat + 39 * (v.toNat / 10) ∨
      ch.toNat = 48 + v.toNat + 7 * (v.toNat / 10) := by
  have hv : v.toNat < 16 := v.isLt
  simp only [hexDigit?]
  split
  · rw [some_ofNat_eq_some_iff]; omega
  split
  · rw [some_ofNat_eq_some_iff]; omega
  split
  · rw [some_ofNat_eq_some_iff]; omega
  · refine iff_of_false nofun ?_
    omega

theorem toNat_getD_lowerDigits : ∀ v : BitVec 4,
    (['0', '1', '2', '3', '4', '5', '6', '7', '8', '9', 'a', 'b', 'c', 'd', 'e', 'f'].getD v.toNat ' ').toNat =
      48 + v.toNat + 39 * (v.toNat / 10) := by
  decide

theorem toNat_getD_upperDigits : ∀ v : BitVec 4,
    (['0', '1', '2', '3', '4', '5', '6', '7', '8', '9', 'A', 'B', 'C', 'D', 'E', 'F'].getD v.toNat ' ').toNat =
      48 + v.toNat + 7 * (v.toNat / 10) := by
  decide

/-- Settles O6: the value of the accepted Word, the codes of the digits, and the cases of `parseToken`. -/
theorem tokenIsFourHexDigits : Obligations.TokenIsFourHexDigits := by
  refine ⟨fun d3 d2 d1 d0 v3 v2 v1 v0 h3 h2 h1 h0 => ⟨_, parseToken_of_digits h3 h2 h1 h0, ?_⟩,
    fun v ch => ?_, fun token hbad => ?_⟩
  · simp only [toNat_append_eq_add]
    omega
  · rw [hexDigit?_eq_some_iff, ← Char.toNat_inj, ← Char.toNat_inj, toNat_getD_lowerDigits, toNat_getD_upperDigits]
  · obtain ⟨hgood, -⟩ | ⟨-, hwhy⟩ := parseToken_cases token
    · exact absurd (hgood.symm.trans hbad) nofun
    · exact hwhy

/-- Settles O45: of the two cases of `parseToken`, only the accepted token changes the state, in its queue. -/
theorem loaderPresentsValidTokens : Obligations.LoaderPresentsValidTokens := by
  intro token s
  obtain ⟨hgood, w, hw⟩ | ⟨hbad, why, hwhy⟩ := parseToken_cases token
  · refine ⟨fun _ => ⟨w, hw, ?_⟩, fun hbad => absurd (hgood.symm.trans hbad) nofun⟩
    rw [State.offerToken, hw]
    exact ⟨rfl, rfl⟩
  · refine ⟨fun hgood => absurd (hgood.symm.trans hbad) nofun, fun _ => ?_⟩
    rw [State.offerToken, hwhy]

/-! ### No step faults (R57, R77, R120) -/

/-- Settles O37, by the step's and the instruction's inversions. -/
theorem everyStepIsSafe : Obligations.EveryStepIsSafe :=
  ⟨step_answers, fun w s => exec_answers (decode w) s⟩

/-! ### The decoder's outputs (R62) -/

/-- R62, row by row: the enables, the write index and `halt` are what the tables say of the instruction. -/
theorem controlOf_agrees_with_tables (w : Word) :
    (controlOf w).writeIndex = (decode w).writtenReg ∧
    (controlOf w).regWe = (decode w).writtenReg.isSome ∧
    (controlOf w).memRe = (decode w).loadedAddress.isSome ∧
    (controlOf w).memWe = (decode w).storedAddress.isSome ∧
    (controlOf w).halt = decide (decode w = .halt) := by
  have hlt : (opField w).toNat < 16 := (opField w).isLt
  unfold controlOf decode
  generalize (opField w).toNat = op at hlt ⊢
  interval_cases op <;> exact ⟨rfl, rfl, rfl, rfl, rfl⟩

theorem loadedAddress_isSome_iff (i : Instr) : i.loadedAddress.isSome = true ↔ i.opcode = 1#4 := by
  cases i <;> simp [Instr.loadedAddress, Instr.opcode]

theorem storedAddress_isSome_iff (i : Instr) : i.storedAddress.isSome = true ↔ i.opcode = 3#4 := by
  cases i <;> simp [Instr.storedAddress, Instr.opcode]

/-- R13, R35: no instruction writes both a register and memory. -/
theorem writtenReg_eq_none_of_stores {i : Instr} (h : i.storedAddress.isSome = true) : i.writtenReg = none := by
  cases i with
  | stm _ _ => rfl
  | _ => cases h

/-- Settles O46: the enables follow the instruction, which writes at most one place. -/
theorem controlEnablesAtMostOneWrite : Obligations.ControlEnablesAtMostOneWrite := by
  intro w
  obtain ⟨hindex, hreg, hload, hstore, hhalt⟩ := controlOf_agrees_with_tables w
  rw [hindex, hreg, hload, hstore, hhalt]
  refine ⟨fun ⟨hwrites, hstores⟩ => ?_, Iff.rfl, rfl, ?_, ?_, ?_⟩
  · rw [writtenReg_eq_none_of_stores hstores] at hwrites
    cases hwrites
  · rw [loadedAddress_isSome_iff, opcode_decode]
  · rw [storedAddress_isSome_iff, opcode_decode]
  · rw [decide_eq_true_iff, decode_eq_halt_iff]

/-! ### Sample Words (95_test_vectors.md section 2.1) -/

/-- Settles O1, by decoding the sixteen closed Words. -/
theorem sampleWordsDecode : Obligations.SampleWordsDecode := by
  unfold Obligations.SampleWordsDecode
  decide

end Sys2Proof.Machine

/-! ### Decode and dispatch (spec 40_decode_dispatch.md): the instructions that return only their status -/

namespace Sys2Proof.Machine

/-- R54: a Word masked to its opcode shows its opcode field. -/
theorem opField_eq_of_and_F000 {w p : Word} (h : w &&& 0xF000#16 = p) : opField w = opField p :=
  calc opField w = opField w &&& 0xF#4 := (and_ones _).symm
    _ = opField (w &&& 0xF000#16) := (opField_and w 0xF000#16).symm
    _ = opField p := congrArg opField h

/-- R52, R54: an instruction of format N has no operand, so its opcode alone selects it. -/
theorem decode_eq_of_format_N {i : Instr} (hN : i.format = .N) {w : Word} (hop : opField w = i.opcode) :
    decode w = i := by
  have hformat : (decode w).format = .N :=
    (format_eq_of_opcode_eq ((opcode_decode w).trans hop)).trans hN
  have hencode : encode (decode w) = encode i := by
    rw [encode_of_format_N hformat, encode_of_format_N hN, opcode_decode, hop]
  calc decode w = decode (encode (decode w)) := (decode_encode _).symm
    _ = decode (encode i) := by rw [hencode]
    _ = i := decode_encode i

/-- R13, R76: an instruction for which the tables name no register and no byte returns its status and no more. -/
theorem exec_writesNothing {i : Instr} (hreg : i.writtenReg = none) (hstore : i.storedAddress = none) (s : State) :
    ∃ t, exec i s = .next t ∧ WritesNothing s t ∧ t.status = some (if i = .halt then .HALT else .CONTINUE) := by
  obtain ⟨t, ht⟩ := exec_answers i s
  refine ⟨t, ht, ?_, exec_status ht⟩
  obtain ⟨a, v, hwrites, -, -⟩ | ⟨a, addr, rfl, -⟩ | ⟨-, -, rfl⟩ := exec_cases ht
  · cases hreg.symm.trans hwrites
  · cases hstore
  · exact returning_writesNothing s _

/-- Settles O24: opcode 12 selects HALT, and the tables name nothing that it writes. -/
theorem haltOnlyReturnsStatus : Obligations.HaltOnlyReturnsStatus :=
  ⟨fun _ h => (decode_eq_halt_iff _).mpr (opField_eq_of_and_F000 h), exec_writesNothing rfl rfl⟩

/-- Settles O25: the three no-ops have format N, and the tables name nothing that they write. -/
theorem opcodesWithoutHandlerDoNothing : Obligations.OpcodesWithoutHandlerDoNothing :=
  ⟨fun _ => decode_eq_of_format_N (i := .nop0) rfl, fun _ => decode_eq_of_format_N (i := .nop14) rfl,
    fun _ => decode_eq_of_format_N (i := .nop15) rfl,
    fun s => ⟨exec_writesNothing rfl rfl s, exec_writesNothing rfl rfl s, exec_writesNothing rfl rfl s⟩⟩

end Sys2Proof.Machine

/-! ### Data movement (spec 41_data_movement.md): LDM, LDI, STM and MOV -/

namespace Sys2Proof.Machine

/-! ### What opcodes 1 to 4 decode to (R54) -/

theorem decode_eq_ldm {w : Word} (hop : opField w = 1#4) : decode w = .ldm (aField w) (imm8Field w) := by
  rw [decode, hop]
  rfl

theorem decode_eq_ldi {w : Word} (hop : opField w = 2#4) : decode w = .ldi (aField w) (imm8Field w) := by
  rw [decode, hop]
  rfl

theorem decode_eq_stm {w : Word} (hop : opField w = 3#4) : decode w = .stm (aField w) (imm8Field w) := by
  rw [decode, hop]
  rfl

theorem decode_eq_mov {w : Word} (hop : opField w = 4#4) : decode w = .mov (aField w) (cField w) := by
  rw [decode, hop]
  rfl

/-! ### What LDI and MOV do to the state (R81, R83) -/

theorem exec_ldi (a : RegIndex) (imm : Byte) (s : State) :
    exec (.ldi a imm) s = .next ((s.writeReg a imm).returning .CONTINUE) :=
  rfl

theorem exec_mov (a c : RegIndex) (s : State) :
    exec (.mov a c) s = .next ((s.writeReg a (s.readReg c)).returning .CONTINUE) :=
  rfl

/-- R83: a register that takes its own value does not change, so nothing does. -/
theorem WritesRegister.writesNothing_of_same {a : RegIndex} {s t : State} (h : WritesRegister a (s.readReg a) s t) :
    WritesNothing s t where
  registers r := by
    by_cases hr : r = a
    · rw [hr, h.written]
    · exact h.otherRegs r hr
  memory := h.memory
  rest := h.rest

/-! ### The four instructions -/

/-- Settles O11: opcode 1 selects LDM, which writes the byte at its address to its register. -/
theorem ldmLoadsByte : Obligations.LdmLoadsByte :=
  ⟨fun _ h => decode_eq_ldm (opField_eq_of_and_F000 h),
    fun a addr s => ⟨_, exec_ldm a addr s, writeReg_writesRegister s a _ _⟩⟩

/-- Settles O12: opcode 2 selects LDI, which writes its immediate to its register. -/
theorem ldiLoadsImmediate : Obligations.LdiLoadsImmediate :=
  ⟨fun _ h => decode_eq_ldi (opField_eq_of_and_F000 h),
    fun a imm s => ⟨_, exec_ldi a imm s, writeReg_writesRegister s a imm _⟩⟩

/-- Settles O13: opcode 3 selects STM, whose address is in range, so the store is not dropped. -/
theorem stmStoresByte : Obligations.StmStoresByte :=
  ⟨fun _ h => decode_eq_stm (opField_eq_of_and_F000 h),
    fun a addr s hwf => ⟨_, exec_stm a addr s, rfl, writeMem_writesByte hwf (address_inBounds addr) _ _⟩⟩

/-- Settles O14: opcode 4 selects MOV, which writes one register with another's value, or with its own. -/
theorem movCopiesRegister : Obligations.MovCopiesRegister :=
  ⟨fun _ h => decode_eq_mov (opField_eq_of_and_F000 h),
    fun a c s => ⟨_, exec_mov a c s, writeReg_writesRegister s a _ _⟩,
    fun a s => ⟨_, exec_mov a a s, (writeReg_writesRegister s a _ _).writesNothing_of_same⟩⟩

end Sys2Proof.Machine

/-! ### ALU arithmetic (spec 42_alu_arithmetic.md): ADDS, ADDQ and the Q4.4 add -/

namespace Sys2Proof.Machine

/-! ### The closed form of the adds (R91, R93) -/

/-- R93: the closed form is the sum of Bytes. -/
theorem addQ44_eq_add (p q : Byte) : addQ44 p q = p + q := by
  apply BitVec.eq_of_toNat_eq
  have hvalue : ((addQ44 p q).toNat : Int) = ((p.toNat : Int) + q.toNat) % 256 := toNat_wrap8 _
  rw [BitVec.toNat_add]
  omega

theorem addSigned_eq_add (p q : Byte) : addSigned p q = p + q :=
  (addSigned_eq_addQ44 p q).trans (addQ44_eq_add p q)

/-! ### The Q4.4 reading (R91, R94) -/

/-- R91: an integer has nothing to cut off. -/
theorem truncToInt_intCast (n : Int) : truncToInt n = n := by
  rw [truncToInt, Rat.num_intCast, Rat.den_intCast, Nat.cast_one, Int.tdiv_one]

/-- R91: the product that the source truncates is already an integer. -/
theorem q44_add_mul_sixteen (p q : Byte) : (q44 p + q44 q) * 16 = ((p.toNat + q.toNat : Int) : ℚ) := by
  rw [q44, q44]
  push_cast
  ring

theorem addQ44Rational_eq_addQ44 (p q : Byte) : addQ44Rational p q = addQ44 p q := by
  rw [addQ44Rational, q44_add_mul_sixteen, truncToInt_intCast, addQ44]

/-- R94: 16.0 is one more than the largest Byte, in sixteenths. -/
theorem q44_add_lt_sixteen_iff (p q : Byte) : q44 p + q44 q < 16 ↔ p.toNat + q.toNat < 256 := by
  have hlimit : (16 : ℚ) * 16 = (256 : ℕ) := by norm_num
  rw [q44, q44, ← add_div, div_lt_iff₀ (by norm_num), hlimit, ← Nat.cast_add, Nat.cast_lt]

/-- R94: below 16.0 the sum does not wrap. -/
theorem q44_addQ44_of_lt {p q : Byte} (h : q44 p + q44 q < 16) : q44 (addQ44 p q) = q44 p + q44 q := by
  have hsum : p.toNat + q.toNat < 256 := (q44_add_lt_sixteen_iff p q).mp h
  rw [addQ44_eq_add, q44, BitVec.toNat_add_of_lt hsum, Nat.cast_add, add_div, ← q44, ← q44]

/-- Settles O9: the rational sum times 16 is the integer that the closed form wraps. -/
theorem fixedPointAddIsExactBelowSixteen : Obligations.FixedPointAddIsExactBelowSixteen :=
  ⟨addQ44Rational_eq_addQ44, fun _ _ => q44_addQ44_of_lt⟩

/-! ### What opcodes 5 and 6 decode to (R54) and do to the state (R90, R91) -/

theorem decode_eq_adds {w : Word} (hop : opField w = 5#4) : decode w = .adds (aField w) (bField w) (cField w) := by
  rw [decode, hop]
  rfl

theorem decode_eq_addq {w : Word} (hop : opField w = 6#4) : decode w = .addq (aField w) (bField w) (cField w) := by
  rw [decode, hop]
  rfl

theorem exec_adds (a b c : RegIndex) (s : State) :
    exec (.adds a b c) s = .next ((s.writeReg a (addSigned (s.readReg b) (s.readReg c))).returning .CONTINUE) :=
  rfl

theorem exec_addq (a b c : RegIndex) (s : State) :
    exec (.addq a b c) s = .next ((s.writeReg a (addQ44 (s.readReg b) (s.readReg c))).returning .CONTINUE) :=
  rfl

/-! ### The two instructions -/

/-- Settles O16: opcode 5 selects ADDS, which writes the wrapped signed sum, and that is the sum of Bytes. -/
theorem addsAddsModulo256 : Obligations.AddsAddsModulo256 := by
  refine ⟨fun _ h => decode_eq_adds (opField_eq_of_and_F000 h), fun a b c s => ?_⟩
  have hwrites := writeReg_writesRegister s a (addSigned (s.readReg b) (s.readReg c)) .CONTINUE
  exact ⟨_, exec_adds a b c s, hwrites, hwrites.written.trans (addSigned_eq_add _ _)⟩

/-- Settles O17: opcode 6 selects ADDQ, which writes the closed form, and that is the sum of Bytes. -/
theorem addqAddsModulo256 : Obligations.AddqAddsModulo256 :=
  ⟨fun _ h => decode_eq_addq (opField_eq_of_and_F000 h),
    fun a b c s => ⟨_, exec_addq a b c s, addQ44_eq_add _ _ ▸ writeReg_writesRegister s a _ _⟩⟩

/-- Settles O18: the signed and the unsigned sum wrap to the same Byte, so both instructions write it. -/
theorem addqAndAddsAgree : Obligations.AddqAndAddsAgree := fun a b c s => by
  rw [exec_addq, exec_adds, addSigned_eq_addQ44]

end Sys2Proof.Machine

/-! ### ALU bitwise operations and rotate (spec 43_alu_bitwise_rotate.md): OR, AND, XOR and ROR -/

namespace Sys2Proof.Machine

/-! ### The rotate, bit by bit (R104) -/

/-- R104: the special case of 0 steps agrees with the library's rotation, which has none: its left shift drops all. -/
theorem rotateRight8_eq_rotateRight (v : Byte) (s : Nat) : rotateRight8 v s = v.rotateRight s := by
  rw [rotateRight8, BitVec.rotateRight_def]
  by_cases hr : s % 8 = 0
  · rw [if_pos hr, hr, BitVec.ushiftRight_zero, BitVec.shiftLeft_eq_zero le_rfl, BitVec.or_zero]
  · rw [if_neg hr]

/-- R104: "bit `i` of the result is bit `(i + s) mod 8` of `v`". -/
theorem getLsbD_rotateRight8 (v : Byte) (s : Nat) {i : Nat} (hi : i < 8) :
    (rotateRight8 v s).getLsbD i = v.getLsbD ((i + s) % 8) := by
  rw [rotateRight8_eq_rotateRight, BitVec.getLsbD_rotateRight]
  by_cases hwrap : i < 8 - s % 8
  · have hbit : s % 8 + i = (i + s) % 8 := by omega
    simp only [hwrap, decide_true, cond_true, hbit]
  · have hbit : i - (8 - s % 8) = (i + s) % 8 := by omega
    simp only [hwrap, hi, decide_false, decide_true, cond_false, Bool.true_and, hbit]

/-- R104: successive rotations add their steps. -/
theorem rotateRight8_rotateRight8 (v : Byte) (m n : Nat) :
    rotateRight8 (rotateRight8 v m) n = rotateRight8 v (m + n) := by
  apply BitVec.eq_of_getLsbD_eq
  intro i hi
  have hbit : ((i + n) % 8 + m) % 8 = (i + (m + n)) % 8 := by omega
  rw [getLsbD_rotateRight8 _ n hi, getLsbD_rotateRight8 v m (Nat.mod_lt _ (by decide)), hbit,
    getLsbD_rotateRight8 v (m + n) hi]

/-- R104: whole turns are the identity. -/
theorem rotateRight8_of_mod_eq_zero (v : Byte) {s : Nat} (h : s % 8 = 0) : rotateRight8 v s = v :=
  if_pos h

/-! ### What opcodes 7 to 10 decode to (R54) and do to the state (R100 to R103) -/

theorem decode_eq_or {w : Word} (hop : opField w = 7#4) : decode w = .or (aField w) (bField w) (cField w) := by
  rw [decode, hop]
  rfl

theorem decode_eq_and {w : Word} (hop : opField w = 8#4) : decode w = .and (aField w) (bField w) (cField w) := by
  rw [decode, hop]
  rfl

theorem decode_eq_xor {w : Word} (hop : opField w = 9#4) : decode w = .xor (aField w) (bField w) (cField w) := by
  rw [decode, hop]
  rfl

theorem decode_eq_ror {w : Word} (hop : opField w = 10#4) : decode w = .ror (aField w) (cField w) := by
  rw [decode, hop]
  rfl

theorem exec_or (a b c : RegIndex) (s : State) :
    exec (.or a b c) s = .next ((s.writeReg a (s.readReg b ||| s.readReg c)).returning .CONTINUE) :=
  rfl

theorem exec_and (a b c : RegIndex) (s : State) :
    exec (.and a b c) s = .next ((s.writeReg a (s.readReg b &&& s.readReg c)).returning .CONTINUE) :=
  rfl

theorem exec_xor (a b c : RegIndex) (s : State) :
    exec (.xor a b c) s = .next ((s.writeReg a (s.readReg b ^^^ s.readReg c)).returning .CONTINUE) :=
  rfl

theorem exec_ror (a : RegIndex) (steps : Steps) (s : State) :
    exec (.ror a steps) s = .next ((s.writeReg a (rotateRight8 (s.readReg a) steps.toNat)).returning .CONTINUE) :=
  rfl

theorem exec_ror_writesRegister (a : RegIndex) (steps : Steps) (s : State) :
    ∃ t, exec (.ror a steps) s = .next t ∧ WritesRegister a (rotateRight8 (s.readReg a) steps.toNat) s t :=
  ⟨_, exec_ror a steps s, writeReg_writesRegister s a _ _⟩

/-! ### One write after another -/

theorem KeepsRest.trans {s t u : State} (hst : KeepsRest s t) (htu : KeepsRest t u) : KeepsRest s u where
  pc := htu.pc.trans hst.pc
  ir := htu.ir.trans hst.ir
  initRegs := htu.initRegs.trans hst.initRegs
  initMem := htu.initMem.trans hst.initMem
  pending := htu.pending.trans hst.pending

/-- Of two writes to one register the later remains. -/
theorem WritesRegister.trans {a : RegIndex} {v v' : Byte} {s t u : State} (hst : WritesRegister a v s t)
    (htu : WritesRegister a v' t u) : WritesRegister a v' s u where
  written := htu.written
  otherRegs r hr := (htu.otherRegs r hr).trans (hst.otherRegs r hr)
  memory n := (htu.memory n).trans (hst.memory n)
  rest := hst.rest.trans htu.rest

/-- R104: two RORs of one register whose steps make whole turns restore the state. -/
theorem exec_ror_ror_writesNothing (a : RegIndex) {m n : Steps} (h : (m.toNat + n.toNat) % 8 = 0) (s : State) :
    ∃ t u, exec (.ror a m) s = .next t ∧ exec (.ror a n) t = .next u ∧ WritesNothing s u := by
  obtain ⟨t, ht, hst⟩ := exec_ror_writesRegister a m s
  obtain ⟨u, hu, htu⟩ := exec_ror_writesRegister a n t
  rw [hst.written, rotateRight8_rotateRight8, rotateRight8_of_mod_eq_zero _ h] at htu
  exact ⟨t, u, ht, hu, (hst.trans htu).writesNothing_of_same⟩

/-! ### The four instructions -/

/-- Settles O20: opcode 10 selects ROR, which writes the rotated value of its register, fixed bit by bit. -/
theorem rorRotatesTowardBitZero : Obligations.RorRotatesTowardBitZero := by
  refine ⟨fun _ h => decode_eq_ror (opField_eq_of_and_F000 h), fun a steps s => ?_⟩
  obtain ⟨t, ht, hwrites⟩ := exec_ror_writesRegister a steps s
  exact ⟨t, _, ht, hwrites, fun _ => getLsbD_rotateRight8 _ _⟩

/-- Settles O21: the two step counts add up to 0 or 8, a whole turn; and a turn of 0 writes the register's own value. -/
theorem rorIsUndoneByComplement : Obligations.RorIsUndoneByComplement := by
  refine ⟨fun a k s hk => exec_ror_ror_writesNothing a ?_ s, fun a s => ?_⟩
  · rw [BitVec.toNat_ofNat, BitVec.toNat_ofNat]
    omega
  · obtain ⟨t, ht, hwrites⟩ := exec_ror_writesRegister a 0#4 s
    rw [rotateRight8_of_mod_eq_zero _ rfl] at hwrites
    exact ⟨t, ht, hwrites.writesNothing_of_same⟩

/-- Settles O19: opcodes 7, 8 and 9 select OR, AND and XOR, each of which writes its result to its register. -/
theorem bitwiseOperations : Obligations.BitwiseOperations :=
  ⟨fun _ h => decode_eq_or (opField_eq_of_and_F000 h), fun _ h => decode_eq_and (opField_eq_of_and_F000 h),
    fun _ h => decode_eq_xor (opField_eq_of_and_F000 h),
    fun a b c s => ⟨⟨_, exec_or a b c s, writeReg_writesRegister s a _ _⟩,
      ⟨_, exec_and a b c s, writeReg_writesRegister s a _ _⟩,
      ⟨_, exec_xor a b c s, writeReg_writesRegister s a _ _⟩⟩⟩

end Sys2Proof.Machine

/-! ### Compare (spec 44_compare_halt.md): the two comparison functions, JEQ and JGT -/

namespace Sys2Proof.Machine

/-! ### The comparison functions (R114) -/

/-- R4: the two's-complement reading is the library's. -/
theorem sext8_eq_toInt (v : Byte) : sext8 v = v.toInt := by
  rw [BitVec.toInt_eq_toNat_cond]
  obtain ⟨hv, hs⟩ | ⟨hv, hs⟩ := sext8_cases v
  · rw [hs, if_pos (by omega)]
  · rw [hs, if_neg (by omega)]
    rfl

theorem cmpEq_iff {p q : Byte} : cmpEq p q = true ↔ p = q :=
  beq_iff_eq

/-- R114, D5: the left operand is the greater, so the library's comparison takes the operands exchanged. -/
theorem cmpGtSigned_iff {p q : Byte} : cmpGtSigned p q = true ↔ q.slt p = true := by
  rw [cmpGtSigned, decide_eq_true_iff, sext8_eq_toInt, sext8_eq_toInt, BitVec.slt_iff_toInt_lt]

theorem cmpGtSigned_self (v : Byte) : cmpGtSigned v v = false :=
  decide_eq_false (lt_irrefl (sext8 v))

/-- Settles O10: the signed comparison is the library's with the operands exchanged. -/
theorem comparisonsFollowTheReadings : Obligations.ComparisonsFollowTheReadings :=
  ⟨fun _ _ => cmpEq_iff, fun _ _ => cmpGtSigned_iff, cmpGtSigned_self⟩

/-! ### What opcodes 11 and 13 decode to (R54) -/

theorem decode_eq_jeq {w : Word} (hop : opField w = 11#4) : decode w = .jeq (aField w) (imm8Field w) := by
  rw [decode, hop]
  rfl

theorem decode_eq_jgt {w : Word} (hop : opField w = 13#4) : decode w = .jgt (aField w) (imm8Field w) := by
  rw [decode, hop]
  rfl

/-! ### The two instructions (R110, R111) -/

/-- Settles O22: opcode 11 selects JEQ, and the tables name nothing that it writes. -/
theorem jeqIsInert : Obligations.JeqIsInert :=
  ⟨fun _ h => decode_eq_jeq (opField_eq_of_and_F000 h), fun _ _ => exec_writesNothing rfl rfl⟩

/-- Settles O23: opcode 13 selects JGT, and the tables name nothing that it writes. -/
theorem jgtIsInert : Obligations.JgtIsInert :=
  ⟨fun _ h => decode_eq_jgt (opField_eq_of_and_F000 h), fun _ _ => exec_writesNothing rfl rfl⟩

end Sys2Proof.Machine

/-! ### Runs and their end (spec 70_reset_and_hazards.md) -/

namespace Sys2Proof.Machine

/-- R147: a run executes Words without HALT one after the other, so how it ends depends only on the Words after them. -/
theorem runProgram_append_eq_executeAll {after kept : List Word} (hend : ∀ s, runProgram after s = executeAll kept s)
    {ws : List Word} (hws : ∀ v ∈ ws, opField v ≠ 12#4) (s : State) :
    runProgram (ws ++ after) s = executeAll (ws ++ kept) s := by
  induction ws generalizing s with
  | nil => exact hend s
  | cons v ws ih =>
    obtain ⟨hv, hrest⟩ := List.forall_mem_cons.mp hws
    obtain ⟨t, ht⟩ := exec_answers (decode v) s
    have hcontinue : t.haltPort ≠ true := mt (execute_haltPort_iff ht).mp hv
    rw [List.cons_append, List.cons_append, runProgram_cons_continue ht hcontinue, executeAll_cons ht]
    exact ih hrest t

/-- R147: "Words after the first `HALT` are not executed in a run". -/
theorem runProgram_halt {w : Word} (hw : opField w = 12#4) (rest : List Word) (s : State) :
    runProgram (w :: rest) s = executeAll [w] s := by
  obtain ⟨t, ht⟩ := exec_answers (decode w) s
  rw [runProgram_cons_halt ht ((execute_haltPort_iff ht).mpr hw), executeAll_cons ht]
  rfl

/-- Settles O43: after the Words without HALT, a run ends with the HALT, or with the list. -/
theorem runEndsAfterFirstHalt : Obligations.RunEndsAfterFirstHalt := by
  refine ⟨fun ws rest w s hws hw => runProgram_append_eq_executeAll (runProgram_halt hw rest) hws s,
    fun ws s hws => ?_⟩
  have hend : ∀ s, runProgram [] s = executeAll [] s := fun _ => rfl
  simpa only [List.append_nil] using runProgram_append_eq_executeAll hend hws s

end Sys2Proof.Machine
